-- ==== Sys2Proof/Word.lean ====
section
/-! DEFINITION. The word types of the B32TOTP core (spec/00_scope.md rules R7 and R8). -/

namespace Sys2Proof

/-- A byte, and a character code unit of a text buffer (R7 `CHAR_BITS` = 8, R8). -/
abbrev Byte := BitVec 8

/-- The widths of the time operands `NOW`, `START`, `STEP`, `WALLCLK` and of the Counter (R7 `TIME_BITS`). -/
abbrev Time := BitVec 64

/-- The width of the operand `PINLEN` (R7 `PINLEN_BITS`). -/
abbrev PinLen := BitVec 32

end Sys2Proof
end

