-- ==== Sys2Proof/Syntax.lean ====
section
/-! DEFINITION. The command set: one constructor per row of spec/opcode_table.json (R3, R47). -/

namespace Sys2Proof

/-- The four operations (R47). The three flags of the generator select the default of `pinLength` (`dp`),
`stepSeconds` (`dt`) and `startSeconds` (`ds`) in place of its port (R46, R48). Operands are not part of a command
word: they travel on ports of the request (R45). -/
inductive Instr where
  /-- `B32ENC`: encode bytes to Base32 text (R65). -/
  | b32enc
  /-- `B32DEC`: decode Base32 text to bytes (R77). -/
  | b32dec
  /-- `TOTPGEN`: the PIN for the time on port `NOW` (R95). -/
  | totpgen (dp dt ds : Bool)
  /-- `TOTPGENW`: the PIN for the wall-clock second on port `WALLCLK` (R116). -/
  | totpgenw (dp dt ds : Bool)
  deriving DecidableEq, Repr

end Sys2Proof
end

