-- ==== Sys2Proof/WellFormed.lean ====
section
/-! DEFINITION. Which command words are legal (R46, R50), said without the decoder.
Every term of `Instr` is well-formed: its operands are three flags, and any of their combinations is legal (R48). -/

namespace Sys2Proof

/-- The field `RSV` is 0b00 (R46). -/
def CommandWord.reservedZero (w : Byte) : Bool := w.toNat / 64 == 0

/-- The field `OP` is not the reserved value 0b11 (R47). -/
def CommandWord.opDefined (w : Byte) : Bool := w.toNat % 4 != 3

/-- `DP`, `DT`, `DS` and `W` are 0 unless `OP` = 2 (R46). -/
def CommandWord.flagsAllowed (w : Byte) : Bool := w.toNat % 4 == 2 || w.toNat / 4 % 16 == 0

/-- The 18 legal values of `CMD` (R50). -/
def CommandWord.wf (w : Byte) : Bool :=
  CommandWord.reservedZero w && CommandWord.opDefined w && CommandWord.flagsAllowed w

end Sys2Proof
end

