-- ==== Sys2Proof/Decode.lean ====
section
/-! DEFINITION. Decoding and encoding of the command word (R46, R47, R50, R63). -/

namespace Sys2Proof

/-- Why a command word is illegal: the three grounds of R50. -/
inductive DecodeError where
  /-- `RSV` is not 0b00. -/
  | reservedBits
  /-- `OP` is 0b11. -/
  | reservedOperation
  /-- A codec command with one of the bits 5:2 set. -/
  | codecFlags
  deriving DecidableEq, Repr

/-- Decoding of the command word, in the order of tests of R63. Total: every one of the 256 words gives an
instruction or a named reason. -/
def decode (w : Byte) : Except DecodeError Instr :=
  if w.extractLsb' 6 2 ≠ 0 then .error .reservedBits
  else if w.extractLsb' 0 2 = 3 then .error .reservedOperation
  else if w.extractLsb' 0 2 = 0 then
    if w.extractLsb' 2 4 = 0 then .ok .b32enc else .error .codecFlags
  else if w.extractLsb' 0 2 = 1 then
    if w.extractLsb' 2 4 = 0 then .ok .b32dec else .error .codecFlags
  else if w.getLsbD 2 = false then .ok (.totpgen (w.getLsbD 5) (w.getLsbD 4) (w.getLsbD 3))
  else .ok (.totpgenw (w.getLsbD 5) (w.getLsbD 4) (w.getLsbD 3))

/-- The command word of a generator operation: `RSV` = 00, then `DP DT DS`, then `W`, then `OP` = 10 (R46). -/
def generatorWord (dp dt ds w : Bool) : Byte :=
  (0 : BitVec 2) ++ BitVec.ofBool dp ++ BitVec.ofBool dt ++ BitVec.ofBool ds ++ BitVec.ofBool w ++ (2 : BitVec 2)

/-- The command word of an instruction (R46, R47). -/
def encode : Instr → Byte
  | .b32enc => 0x00
  | .b32dec => 0x01
  | .totpgen dp dt ds => generatorWord dp dt ds false
  | .totpgenw dp dt ds => generatorWord dp dt ds true

/-- The instruction the decoder reads from the table word `w` of `nbits` bits (bits from `nbits` up are 0). A command
is one byte (R60), so the table's numbering of bits is the byte's. -/
def decodeTableWord (nbits w : Nat) : Option Instr :=
  match decode (BitVec.ofNat 8 (w % 2 ^ nbits)) with
  | .ok i => some i
  | .error _ => none

theorem decode_word_b32enc : decode 0b00000000 = .ok .b32enc := by decide
theorem decode_word_b32dec : decode 0b00000001 = .ok .b32dec := by decide
theorem decode_word_totpgen : decode 0b00100010 = .ok (.totpgen true false false) := by decide
theorem decode_word_totpgenw : decode 0b00011110 = .ok (.totpgenw false true true) := by decide

end Sys2Proof
end

