-- ==== Sys2Proof/Config.lean ====
section
/-! DEFINITION. The OPEN parameters of spec/00_scope.md rule R7. One that changes what an operation answers is an
argument of the operations and of the step (`Params`); the constants and the instance that `exec` runs stand in
Machine/Parameters.lean. The HMAC primitive, `TRIM_SET`, `HM_PRESENT` and `OVERFLOW_POLICY` have no body here, so that
no proof can know them (assumption log 1 to 4). `REGMAP` has no definition: no rule depends on it (R36). -/

namespace Sys2Proof

/-- The values of the OPEN parameter `OVERFLOW_POLICY` (R7, R101). -/
inductive OverflowPolicy where
  /-- A difference outside 64 bits signed is `CounterOverflow`. -/
  | fault
  /-- The difference is reduced modulo 2^64 and read as signed. -/
  | wrap
  deriving DecidableEq, Repr, Inhabited

/-- The OPEN parameters the step relation takes as arguments (R7, R11, R25). -/
structure Params where
  /-- `HMAC`: (key bytes, message bytes) to digest bytes, total and of any digest length (R7, R108, R133). -/
  hmac : List Byte → List Byte → List Byte
  /-- `TRIM_SET`, taken within the constraints of R79 and R53 (assumption log 2). -/
  trimSet : Byte → Bool
  /-- `HM_PRESENT` (R143). -/
  hmPresent : Bool
  /-- `BUF_CAP`, `none` for an unbounded one (R31). -/
  bufCap : Option Nat
  /-- `OVERFLOW_POLICY` (R101). -/
  overflow : OverflowPolicy

/-- The HMAC primitive of this core: opaque and deterministic given key and message, 20 bytes of digest
(R108, R133 (c)). No body: a statement about it holds for every such function (assumption log 1). -/
opaque Config.hmac : List Byte → List Byte → Vector Byte 20

/-- The platform's `TRIM_SET` (R79). No body (assumption log 2). -/
opaque Config.trimSet : Byte → Bool

/-- `HM_PRESENT`: whether the HMAC primitive exists in this instance (R7, R143). No body (assumption log 3). -/
opaque Config.hmPresent : Bool

/-- The platform's `OVERFLOW_POLICY` (R7, R101). No body (assumption log 4). -/
opaque Config.overflowPolicy : OverflowPolicy

end Sys2Proof
end

