-- ==== Sys2Proof/Machine/Parameters.lean ====
section
/-! DEFINITION. The constants of spec/00_scope.md rule R7, and the instance of the parameters that `exec` runs. -/

namespace Sys2Proof

/-- `ENC_LIMIT` = 2^28 (R7, R66). -/
def Config.encLimit : Nat := 268435456

/-- `DEF_STEP` = 30 (R7, R48). -/
def Config.defStep : Time := 30

/-- `DEF_START` = 0 (R7, R48). -/
def Config.defStart : Time := 0

/-- `DEF_PINLEN` = 6 (R7, R48). -/
def Config.defPinLen : PinLen := 6

/-- The default of `TRIM_SET`: every code 0x00 to 0x20 (R7, R79). -/
def Config.defTrimSet (c : Byte) : Bool := decide (c.toNat ≤ 0x20)

/-- The instance of the parameters that `exec` and `step` run. `BUF_CAP` is unbounded, as R31 lets a model take it:
DESIGN CHOICE, unsafe for a platform with a bound (assumption log 5). The others have no body (assumption log 1 to 4). -/
def Config.params : Params where
  hmac key msg := (Config.hmac key msg).toList
  trimSet := Config.trimSet
  hmPresent := Config.hmPresent
  bufCap := none
  overflow := Config.overflowPolicy

/-- The instance with every parameter that has a default in R7 at that default. -/
def Config.defaults : Params := { Config.params with trimSet := Config.defTrimSet, overflow := .fault }

end Sys2Proof
end

