-- ==== Sys2Proof/Machine/State.lean ====
section
/-! DEFINITION. The state of the core (spec/10_state.md): the request ports, the response ports, `ALGOK`, the transient
registers, and the host's moves to come. Plain data throughout. -/

namespace Sys2Proof.Machine

/-- The contents of one buffer space: (index, byte) pairs, indexes strictly rising, no byte equal to `unlistedByte`. -/
abbrev Memory := List Host.Cell

/-- What an index that is not listed reads as. Below a buffer's length every byte has been written by the buffer's
writer (R30), so this only says that zero bytes are not listed; at and above the length there is no byte.
DESIGN CHOICE: 0 (assumption log 11). -/
def unlistedByte : Byte := 0x00

/-- A buffer: a finite sequence of bytes indexed from 0 (R9, R30), with its length (`SRCLEN`, `RESLEN`, `KEYLEN`,
`DIGLEN`). -/
structure Buffer where
  cells : Memory
  len : Nat
  deriving DecidableEq, Repr

/-- A request: the operand ports of R14 with the value `WALLCLK` shows when the request is accepted (R45). -/
structure Request where
  /-- `CMD`, the command word (R46). -/
  cmd : BitVec 8
  /-- `SRC` and `SRCLEN`. -/
  src : Buffer
  /-- `NOW`. -/
  now : Time
  /-- `START`. -/
  start : Time
  /-- `STEP`. -/
  step : Time
  /-- `PINLEN`. -/
  pinlen : PinLen
  /-- `WALLCLK`, driven by the platform. -/
  wallclk : Time
  deriving DecidableEq, Repr

/-- One move of the host on the core's inputs (assumption log 7). -/
inductive HostMove where
  /-- Presenting a request (R17, R38). -/
  | request (r : Request)
  /-- A reset between operations (R142). -/
  | reset
  /-- Presenting a request and resetting the core before its response: the operation is abandoned (R144). -/
  | resetDuring (r : Request)
  deriving DecidableEq, Repr

/-- The outcome of an operation (R57); its 4-bit code is `Status.code`. Codes 9 to 15 are never produced and have no
constructor. -/
inductive Status where
  | ok
  | invalidCharacter
  | invalidPinLength
  | unsupportedAlgorithm
  | digestTooShort
  | inputTooLong
  | invalidTimeStep
  | counterOverflow
  | illegalCommand
  deriving DecidableEq, Repr

/-- The response ports (R15): `STATUS`, `ERRCHAR`, and `RES` with `RESLEN`. -/
structure Response where
  status : Status
  errchar : Byte
  res : Buffer
  deriving DecidableEq, Repr

/-- The transient registers of the codec unit (R22), live inside an operation and 0 between requests (R137; assumption
log 10). -/
structure CodecRegs where
  /-- `ACC`, the bit accumulator. -/
  acc : BitVec 12
  /-- `CNT`, the number of significant bits in `ACC`. -/
  cnt : BitVec 4
  /-- `IDX`, the index of the next input element. -/
  idx : Nat
  deriving DecidableEq, Repr

/-- The transient registers of the generator unit (R23), live like the codec's (assumption log 10, 14). -/
structure GenRegs where
  /-- `T_NOW`. -/
  tNow : Time
  /-- `T_START`. -/
  tStart : Time
  /-- `T_STEP`. -/
  tStep : Time
  /-- `T_PIN`. -/
  tPin : PinLen
  /-- `DIFF`, `now - start`, exact. -/
  diff : BitVec 65
  /-- `CTR`, the Counter. -/
  ctr : Time
  /-- `CHAL`, the Challenge, 8 bytes. -/
  chal : Buffer
  /-- `KEY` and `KEYLEN`. -/
  key : Buffer
  /-- `DIG` and `DIGLEN`. -/
  dig : Buffer
  /-- `OFF`, the truncation offset. -/
  off : BitVec 4
  /-- `TH`, the truncated hash. -/
  th : BitVec 31
  /-- `PINVAL`. -/
  pinval : BitVec 30
  deriving DecidableEq, Repr

/-- The machine. -/
structure State where
  /-- The MODEL'S OWN field, not the spec's: the host's moves to come, in the order it makes them (R17, R38), each
  request with the value `WALLCLK` shows at its acceptance (assumption log 7, 8). -/
  pending : List HostMove
  /-- The request ports. DESIGN CHOICE: between operations they show the last request (assumption log 16). -/
  req : Request
  /-- The response ports. -/
  resp : Response
  /-- `ALGOK`, latched at reset (R19, R143). -/
  algok : Bool
  /-- Transient registers of the codec unit. -/
  codec : CodecRegs
  /-- Transient registers of the generator unit. -/
  gen : GenRegs
  deriving DecidableEq, Repr

/-- Why the machine stops with a fault: never. The core's errors are statuses in a response, outcomes of an operation
that ran (R127, R139); no rule stops the core, and no rule reads outside a buffer (R30). Nothing raises a fault, which
is safe: there is no behaviour it could hide. -/
inductive Fault where
  deriving DecidableEq, Repr

/-- Why the model gives a request no meaning. -/
inductive Refusal where
  /-- An instruction without a meaning in this model. Raised by no arm of `exec`: every instruction has its meaning.
  Safe. -/
  | notModelled (mnemonic : String)
  /-- The operand is longer than the platform's `BUF_CAP`, so the request cannot be presented (R31, R139). Raised by
  `stepOf` through `admitted` only, and never while `BUF_CAP` is unbounded, as in `Config.params`. Safe: the model
  stops. -/
  | operandTooLong
  /-- The result is longer than the platform's `BUF_CAP`, which bounds the results it can present too (R7). Raised by
  `deliver` only, and never while `BUF_CAP` is unbounded, as in `Config.params`. Safe: the model stops. -/
  | resultTooLong
  deriving DecidableEq, Repr

/-- The empty buffer. -/
def Buffer.empty : Buffer := ⟨[], 0⟩

/-- The request ports before the host drives them. The spec gives inputs no reset value (R26).
DESIGN CHOICE, unsafe: all zero, `SRC` empty (assumption log 6). -/
def Request.undriven : Request := ⟨0, Buffer.empty, 0, 0, 0, 0, 0⟩

/-- `ACC`, `CNT` and `IDX` cleared (R22, R26). -/
def CodecRegs.zero : CodecRegs := ⟨0, 0, 0⟩

/-- The registers of R23 cleared (R26). `CHAL` is a buffer of 8 bytes, all 0. -/
def GenRegs.zero : GenRegs := ⟨0, 0, 0, 0, 0, 0, ⟨[], 8⟩, Buffer.empty, Buffer.empty, 0, 0, 0⟩

/-- The machine right after reset (R26, R142, R143): idle, nothing presented yet. -/
def State.reset : State where
  pending := []
  req := Request.undriven
  resp := ⟨.ok, 0, Buffer.empty⟩
  algok := Config.hmPresent
  codec := CodecRegs.zero
  gen := GenRegs.zero

end Sys2Proof.Machine
end

