-- ==== Sys2Proof/Machine/Ops.lean ====
section
/-! DEFINITION. The named operations over buffers, the host's ports and the response: reading and writing a buffer
(R9, R30), accepting a request (R38, R45), delivering a result, and raising an error (R127). -/

namespace Sys2Proof.Machine

/-! ## Buffers -/

/-- One byte of a buffer space. -/
def Memory.read : Memory → Nat → Byte
  | [], _ => unlistedByte
  | (b, v) :: rest, a => if b = a then v else Memory.read rest a

/-- Write one byte, keeping the canonical form: indexes rise and no listed byte equals `unlistedByte`. -/
def Memory.write : Memory → Nat → Byte → Memory
  | [], a, v => if v = unlistedByte then [] else [(a, v)]
  | (b, w) :: rest, a, v =>
    if a < b then (if v = unlistedByte then (b, w) :: rest else (a, v) :: (b, w) :: rest)
    else if a = b then (if v = unlistedByte then rest else (a, v) :: rest)
    else (b, w) :: Memory.write rest a v

/-- The canonical form from index `lo` up. -/
def Memory.wfFrom (lo : Nat) : Memory → Bool
  | [] => true
  | (a, v) :: rest => decide (lo ≤ a) && v != unlistedByte && Memory.wfFrom (a + 1) rest

/-- The canonical form of a memory: indexes strictly rising, no byte equal to what an unlisted index reads as. -/
def Memory.wf (m : Memory) : Bool := Memory.wfFrom 0 m

/-- A buffer in canonical form: a canonical memory with no byte listed at or above the length. -/
def Buffer.wf (b : Buffer) : Bool := b.cells.wf && b.cells.all (fun c => decide (c.1 < b.len))

/-- `MemRead(buf, i, n)` (R9): `n` consecutive bytes from index `i`. -/
def Buffer.memRead (b : Buffer) (i n : Nat) : List Byte := (List.range n).map (fun k => b.cells.read (i + k))

/-- `MemWrite(buf, i, n, v)` (R9): the bytes of `v` to consecutive indexes from `i`. -/
def Memory.memWrite (m : Memory) (i : Nat) : List Byte → Memory
  | [] => m
  | b :: bs => Memory.memWrite (m.write i b) (i + 1) bs

/-- The whole content of a buffer, element 0 first. -/
def Buffer.bytes (b : Buffer) : List Byte := b.memRead 0 b.len

/-- The buffer that holds a given sequence. -/
def Buffer.ofBytes (l : List Byte) : Buffer := ⟨Memory.memWrite [] 0 l, l.length⟩

/-! ## Requests -/

/-- Whether an operand or a result of `n` bytes fits a platform of capacity `cap` (R7, R31). -/
def admitted (cap : Option Nat) (n : Nat) : Bool :=
  match cap with
  | none => true
  | some c => decide (n ≤ c)

/-- The host presents its next request and the core takes it: the ports hold `r` from here to the response (R38,
R39 (c)), `WALLCLK` included, which is sampled now (R116). -/
def State.accept (s : State) (r : Request) (rest : List HostMove) : State := { s with req := r, pending := rest }

/-- A reset (R142, R143): the response ports and the transient registers cleared, `ALGOK` latched from
`HM_PRESENT`, which is `present`. The request ports are inputs and have no reset value (R26); DESIGN CHOICE: they show
what they showed before (assumption log 16). -/
def State.restart (s : State) (present : Bool) (rest : List HostMove) : State :=
  { s with pending := rest, resp := ⟨.ok, 0, Buffer.empty⟩, algok := present, codec := CodecRegs.zero,
           gen := GenRegs.zero }

/-- A reset during the operation of the request `r` (R144): the request has been accepted, its operation is abandoned
without a response, and nothing of it remains. The moment of the reset cannot be seen, since the reset clears every
register an operation writes (assumption log 9). -/
def State.abandon (s : State) (r : Request) (present : Bool) (rest : List HostMove) : State :=
  (s.accept r rest).restart present rest

/-! ## Results and errors -/

/-- The errors the core can report, each with its information (R122). -/
inductive Error where
  | invalidCharacter (c : Byte)
  | invalidPinLength
  | unsupportedAlgorithm
  | digestTooShort
  | inputTooLong
  | invalidTimeStep
  | counterOverflow
  | illegalCommand
  deriving DecidableEq, Repr

/-- How an operation ends: with a result or by `raise` (R9, R139). -/
inductive Result where
  | ok (bytes : List Byte)
  | error (e : Error)
  deriving DecidableEq, Repr

/-- The status an error is reported under (R122). -/
def Error.status : Error → Status
  | .invalidCharacter _ => .invalidCharacter
  | .invalidPinLength => .invalidPinLength
  | .unsupportedAlgorithm => .unsupportedAlgorithm
  | .digestTooShort => .digestTooShort
  | .inputTooLong => .inputTooLong
  | .invalidTimeStep => .invalidTimeStep
  | .counterOverflow => .counterOverflow
  | .illegalCommand => .illegalCommand

/-- `ERRCHAR` of an error: the offending character of `InvalidCharacter`, 0 of every other (R58). -/
def Error.char : Error → Byte
  | .invalidCharacter c => c
  | _ => 0

/-- Taking an error, the one delivery of R127: status and information, `RESLEN` = 0, nothing else of the machine. -/
def Response.raise (e : Error) : Response := ⟨e.status, e.char, Buffer.empty⟩

/-- The response of a successful operation (R58). -/
def Response.return (bytes : List Byte) : Response := ⟨.ok, 0, Buffer.ofBytes bytes⟩

/-- The response of a result: all four ports together (R44). -/
def Response.of : Result → Response
  | .ok bytes => Response.return bytes
  | .error e => Response.raise e

/-- What an operation leaves: its transient registers, cleared at its start (R22, R23), and how it ended. -/
structure Run where
  codec : CodecRegs
  gen : GenRegs
  result : Result
  deriving DecidableEq, Repr

/-- The last moment of an operation: its registers as it left them and its response (R44). The step then releases the
registers (`State.release`). DESIGN CHOICE: the request ports go on showing the request until the host's next one,
although the core does not hold it (R14; assumption log 16). -/
def State.complete (s : State) (r : Run) : State :=
  { s with codec := r.codec, gen := r.gen, resp := Response.of r.result }

/-- The core between requests (R137): it holds nothing but `ALGOK` and the response on its ports, so every transient
register is back at 0 (assumption log 10). -/
def State.release (s : State) : State := { s with codec := CodecRegs.zero, gen := GenRegs.zero }

/-- An illegal command word: no effect but the response (R50). The request ports as in `State.complete`. -/
def illegal (s : State) : Host.Outcome State Fault Refusal :=
  .next { s with resp := Response.raise .illegalCommand }

end Sys2Proof.Machine
end

