-- ==== Sys2Proof/Machine/Operands.lean ====
section
/-! DEFINITION. The operand forms: the binding of the generator's parameters to ports or defaults (R48, R96), and the
character classes and codes of a text operand (R51, R52, R53). -/

namespace Sys2Proof.Machine

/-! ## The generator's parameters -/

/-- The bound values of `nowSeconds`, `startSeconds`, `stepSeconds` and `pinLength` (R96). -/
structure Bound where
  now : Time
  start : Time
  step : Time
  pin : PinLen
  deriving DecidableEq, Repr

/-- Default binding (R48): each flag that is set takes the default in place of the port. `now` is already chosen by
the instruction (`NOW` for `TOTPGEN`, `WALLCLK` for `TOTPGENW`). -/
def bindParams (now : Time) (dp dt ds : Bool) (r : Request) : Bound where
  now := now
  start := if ds then Config.defStart else r.start
  step := if dt then Config.defStep else r.step
  pin := if dp then Config.defPinLen else r.pinlen

/-! ## Characters -/

/-- `ALPHA[v]` in the arithmetic form of R51. -/
def alpha (v : BitVec 5) : Byte :=
  if v.toNat < 26 then BitVec.ofNat 8 (0x41 + v.toNat) else BitVec.ofNat 8 (0x32 + (v.toNat - 26))

/-- `VAL(c)`, defined on the 32 alphabet codes only (R51). -/
def val (c : Byte) : Option (BitVec 5) :=
  if 0x41 ≤ c.toNat ∧ c.toNat ≤ 0x5A then some (BitVec.ofNat 5 (c.toNat - 0x41))
  else if 0x32 ≤ c.toNat ∧ c.toNat ≤ 0x37 then some (BitVec.ofNat 5 (c.toNat - 0x32 + 26))
  else none

/-- A symbol: one of the 32 alphabet codes. -/
def isSymbol (c : Byte) : Bool := (val c).isSome

/-- `SEP_SET`: `'-'` and space (R80). -/
def isSep (c : Byte) : Bool := c == 0x2D || c == 0x20

/-- `PAD_CHAR`: `'='` (R81). -/
def isPad (c : Byte) : Bool := c == 0x3D

/-- A lower-case letter (R82). -/
def isLower (c : Byte) : Bool := decide (0x61 ≤ c.toNat) && decide (c.toNat ≤ 0x7A)

/-- The codes of no class, 0x80 to 0xFF: always invalid to the decoder (R53). -/
def isClassless (c : Byte) : Bool := decide (0x80 ≤ c.toNat)

/-- `TRIM_SET` (R79): the platform's set within the spec's constraints. Space is in it; no symbol, lower-case letter,
`'-'` or `'='` is (R79), and no code of no class (R53). A set that meets them is taken as it is (assumption log 2). -/
def inTrimSet (P : Params) (c : Byte) : Bool :=
  c == 0x20 || (!(isSymbol c || isLower c || isSep c || isPad c || isClassless c) && P.trimSet c)

/-- Case folding of one code (R82). -/
def upperChar (c : Byte) : Byte := if isLower c then c - 0x20 else c

/-! ## Bit streams -/

/-- The bits of a value, most significant first (R32). -/
def bitsOf {w : Nat} (v : BitVec w) : List Bool := (List.range w).map (fun k => v.getLsbD (w - 1 - k))

/-- The number whose bits, most significant first, are given. -/
def natOfBits (l : List Bool) : Nat := l.foldl (fun a b => 2 * a + b.toNat) 0

/-- `w` bits of a stream from bit `k` up, as a value; the stream is extended with zeros (R68, R86). -/
def groupAt (stream : List Bool) (w k : Nat) : BitVec w :=
  BitVec.ofNat w (natOfBits ((List.range w).map (fun i => stream.getD (k + i) false)))

end Sys2Proof.Machine
end

