-- ==== Sys2Proof/Machine/Codec.lean ====
section
/-! DEFINITION. The Base32Codec unit: `B32ENC` (spec/40_base32_encode.md) and `B32DEC` (spec/41_base32_decode.md).
The result of an operation is the functional form, which is normative (D29); the registers it leaves are those of the
streaming form. -/

namespace Sys2Proof.Machine

/-! ## The encoder -/

/-- The bit stream of a byte sequence (R32). -/
def byteStream (bytes : List Byte) : List Bool := bytes.flatMap (fun b => bitsOf b)

/-- `ceil(8n / 5)` (R69). -/
def encLen (n : Nat) : Nat := (8 * n + 4) / 5

/-- `Enc`, functional form (R68). -/
def enc (bytes : List Byte) : List Byte :=
  (List.range (encLen bytes.length)).map (fun j => alpha (groupAt (byteStream bytes) 5 (5 * j)))

/-- One turn of the encoder's `while`: put out the 5 oldest held bits (R71). -/
def encEmit (r : CodecRegs) (out : List Byte) : CodecRegs × List Byte :=
  let cnt := r.cnt - 5
  ({ r with cnt := cnt, acc := r.acc &&& BitVec.ofNat 12 (2 ^ cnt.toNat - 1) },
    out ++ [alpha ((r.acc >>> cnt.toNat).setWidth 5)])

/-- The encoder's `while CNT >= 5`, at most `fuel` turns; two are enough (R154). -/
def encDrain : Nat → CodecRegs → List Byte → CodecRegs × List Byte
  | 0, r, out => (r, out)
  | fuel + 1, r, out =>
    if 5 ≤ r.cnt.toNat then encDrain fuel (encEmit r out).1 (encEmit r out).2 else (r, out)

/-- The encoder takes in one byte (R71). -/
def encTake (r : CodecRegs) (b : Byte) : CodecRegs :=
  { acc := (r.acc <<< 8) ||| b.setWidth 12, cnt := r.cnt + 8, idx := r.idx + 1 }

/-- The encoder's `for` loop (R71). -/
def encLoop : CodecRegs → List Byte → List Byte → CodecRegs × List Byte
  | r, out, [] => (r, out)
  | r, out, b :: bs => encLoop (encDrain 2 (encTake r b) out).1 (encDrain 2 (encTake r b) out).2 bs

/-- The last symbol, zero-padded on the right, when bits are left over (R71). -/
def encFlush (r : CodecRegs) (out : List Byte) : List Byte :=
  if 0 < r.cnt.toNat then out ++ [alpha ((r.acc <<< (5 - r.cnt.toNat)).setWidth 5)] else out

/-- The streaming encoder: the registers at its end and the text (R71). -/
def encStream (bytes : List Byte) : CodecRegs × List Byte :=
  ((encLoop CodecRegs.zero [] bytes).1,
    encFlush (encLoop CodecRegs.zero [] bytes).1 (encLoop CodecRegs.zero [] bytes).2)

/-- `B32ENC` as a run: the length guard comes before any byte is read (R65, R66). -/
def encodeRun (src : Buffer) : Run :=
  if Config.encLimit ≤ src.len then ⟨CodecRegs.zero, GenRegs.zero, .error .inputTooLong⟩
  else ⟨(encStream src.bytes).1, GenRegs.zero, .ok (enc src.bytes)⟩

/-! ## The decoder -/

/-- Step 1, `Trim` (R79): the longest run of `TRIM_SET` codes at each end is removed. -/
def trim (P : Params) (t : List Byte) : List Byte :=
  ((t.dropWhile (inTrimSet P)).reverse.dropWhile (inTrimSet P)).reverse

/-- Step 2, `RemoveSep` (R80). -/
def removeSep (t : List Byte) : List Byte := t.filter (fun c => !isSep c)

/-- Step 3, `StripPad` (R81). -/
def stripPad (t : List Byte) : List Byte := (t.reverse.dropWhile isPad).reverse

/-- Step 4, `Upper` (R82). -/
def upper (t : List Byte) : List Byte := t.map upperChar

/-- `Clean` (R78). -/
def clean (P : Params) (t : List Byte) : List Byte := upper (stripPad (removeSep (trim P t)))

/-- The bit stream of a sequence of symbols (R86). -/
def symbolStream (t : List Byte) : List Bool := t.flatMap (fun c => bitsOf ((val c).getD 0))

/-- `DecBits` (R86): whole bytes only, the tail bits are dropped (R87). -/
def decBits (t : List Byte) : List Byte :=
  (List.range (5 * t.length / 8)).map (fun i => groupAt (symbolStream t) 8 (8 * i))

/-- `Dec` (R77): the first element of the cleaned text that is no symbol (R85), or the bytes. -/
def dec (P : Params) (t : List Byte) : Except Byte (List Byte) :=
  match (clean P t).find? (fun c => !isSymbol c) with
  | some c => .error c
  | none => .ok (decBits (clean P t))

/-- The decoder takes in one symbol and puts out a byte when 8 bits are held (R88). -/
def decTake (r : CodecRegs) (out : List Byte) (v : BitVec 5) : CodecRegs × List Byte :=
  let acc := (r.acc <<< 5) ||| v.setWidth 12
  let cnt := r.cnt + 5
  if 8 ≤ cnt.toNat then
    ({ acc := acc &&& BitVec.ofNat 12 (2 ^ (cnt - 8).toNat - 1), cnt := cnt - 8, idx := r.idx + 1 },
      out ++ [(acc >>> (cnt - 8).toNat).setWidth 8])
  else ({ acc := acc, cnt := cnt, idx := r.idx + 1 }, out)

/-- The streaming decoder over a cleaned text (R88): the registers where it ends, and the bytes or the first code
that is no symbol. -/
def decStream : CodecRegs → List Byte → List Byte → CodecRegs × Except Byte (List Byte)
  | r, out, [] => (r, .ok out)
  | r, out, c :: cs =>
    match val c with
    | none => (r, .error c)
    | some v => decStream (decTake r out v).1 (decTake r out v).2 cs

/-- The codec registers a decode leaves (R88). -/
def decRegs (P : Params) (t : List Byte) : CodecRegs := (decStream CodecRegs.zero [] (clean P t)).1

/-- `B32DEC` as a run (R77). -/
def decodeRun (P : Params) (src : Buffer) : Run where
  codec := decRegs P src.bytes
  gen := GenRegs.zero
  result :=
    match dec P src.bytes with
    | .ok bytes => .ok bytes
    | .error c => .error (.invalidCharacter c)

/-! ## The meanings -/

/-- `B32ENC` (R65). -/
def execB32enc (s : State) : Host.Outcome State Fault Refusal := .next (s.complete (encodeRun s.req.src))

/-- `B32DEC` (R77) over any parameters. -/
def execB32decWith (P : Params) (s : State) : Host.Outcome State Fault Refusal :=
  .next (s.complete (decodeRun P s.req.src))

/-- `B32DEC` (R77). -/
def execB32dec (s : State) : Host.Outcome State Fault Refusal := execB32decWith Config.params s

end Sys2Proof.Machine
end

