-- ==== Sys2Proof/Machine/Generator.lean ====
section
/-! DEFINITION. The TotpGenerator unit: `TOTPGEN` and `TOTPGENW` (spec/42_totp_generate.md). -/

namespace Sys2Proof.Machine

/-! ## The time -/

/-- `DIFF`, exact (R101). -/
def exactDiff (b : Bound) : Int := b.now.toInt - b.start.toInt

/-- Whether a number fits 64 bits signed (R101). -/
def fitsTime (d : Int) : Bool := decide (-2 ^ 63 ≤ d) && decide (d < 2 ^ 63)

/-- The difference the Counter is taken of (R101): none under the policy `fault` when it does not fit 64 bits. -/
def admitDiff (policy : OverflowPolicy) (d : Int) : Option Int :=
  if fitsTime d then some d
  else
    match policy with
    | .fault => none
    | .wrap => some (BitVec.ofInt 64 d).toInt

/-- The Counter: floor division (R102). -/
def counter (d step : Int) : Int := d.fdiv step

/-- The source's method for the Counter, with truncating division, at unbounded width (R103). -/
def counterTwoBranch (d step : Int) : Int :=
  if 0 ≤ d then d.tdiv step else (d - (step - 1)).tdiv step

/-- `Challenge(CTR)`: 8 bytes, big-endian, two's complement (R105). -/
def challenge (ctr : Time) : List Byte := (List.range 8).map (fun i => ctr.extractLsb' (56 - 8 * i) 8)

/-! ## The digest and the PIN -/

/-- `OFF`, the low nibble of the last digest byte (R109); 0 where there is no last byte
(DESIGN CHOICE, assumption log 14). -/
def truncOffset (dig : List Byte) : BitVec 4 := (dig.getLast?.getD 0).setWidth 4

/-- The window fits the digest (R110). An empty digest has no offset and never reaches. -/
def windowFits (dig : List Byte) : Bool := !dig.isEmpty && decide ((truncOffset dig).toNat + 4 ≤ dig.length)

/-- `W32`, the 4 bytes from the offset, the first most significant (R111). -/
def window (dig : List Byte) : BitVec 32 :=
  dig.getD (truncOffset dig).toNat 0 ++ dig.getD ((truncOffset dig).toNat + 1) 0 ++
    dig.getD ((truncOffset dig).toNat + 2) 0 ++ dig.getD ((truncOffset dig).toNat + 3) 0

/-- `TH`, the window with its sign bit cleared (R111). -/
def truncatedHash (dig : List Byte) : BitVec 31 := (window dig &&& 0x7FFFFFFF).setWidth 31

/-- `POW10[k]` (R59). -/
def pow10 (k : Nat) : Nat := 10 ^ k

/-- `PINVAL` (R112). -/
def pinValue (th : BitVec 31) (pinLength : Nat) : Nat := th.toNat % pow10 pinLength

/-- `FormatPin`: decimal digits, left-padded with `'0'` (R113). -/
def formatPin (v pinLength : Nat) : List Byte :=
  (List.range pinLength).map (fun i => BitVec.ofNat 8 (0x30 + v / pow10 (pinLength - 1 - i) % 10))

/-! ## The operation -/

/-- Binding, the first act of an operation (R96). -/
def genBind (b : Bound) : GenRegs :=
  { GenRegs.zero with tNow := b.now, tStart := b.start, tStep := b.step, tPin := b.pin }

/-- Steps 0, 1 and 2a, in this order (R98, R99, R100, R129). -/
def genCheck (algok : Bool) (b : Bound) : Option Error :=
  if algok = false then some .unsupportedAlgorithm
  else if 9 < b.pin.toInt ∨ b.pin.toInt < 1 then some .invalidPinLength
  else if b.step.toInt ≤ 0 then some .invalidTimeStep
  else none

/-- Steps 6 to 8 on the digest `dig`: truncate, reduce, format (R109 to R114). -/
def genPin (g : GenRegs) (codec : CodecRegs) (pinLength : Nat) (dig : List Byte) : Run :=
  let g := { g with dig := Buffer.ofBytes dig, off := truncOffset dig }
  if windowFits dig then
    ⟨codec, { g with th := truncatedHash dig, pinval := BitVec.ofNat 30 (pinValue (truncatedHash dig) pinLength) },
      .ok (formatPin (pinValue (truncatedHash dig) pinLength) pinLength)⟩
  else ⟨codec, g, .error .digestTooShort⟩

/-- Steps 4 and 5: decode the secret, and call the HMAC primitive once with key and Challenge (R106, R107, R108). -/
def genDigest (P : Params) (g : GenRegs) (pinLength : Nat) (chal text : List Byte) : Run :=
  match dec P text with
  | .error c => ⟨decRegs P text, g, .error (.invalidCharacter c)⟩
  | .ok key =>
    genPin { g with key := Buffer.ofBytes key } (decRegs P text) pinLength (P.hmac key chal)

/-- Steps 2 and 3: the difference, the Counter and the Challenge (R101 to R105), and on to step 4. -/
def genTime (P : Params) (b : Bound) (text : List Byte) : Run :=
  let g := { genBind b with diff := BitVec.ofInt 65 (exactDiff b) }
  match admitDiff P.overflow (exactDiff b) with
  | none => ⟨CodecRegs.zero, g, .error .counterOverflow⟩
  | some d =>
    let ctr := BitVec.ofInt 64 (counter d b.step.toInt)
    genDigest P { g with ctr := ctr, chal := Buffer.ofBytes (challenge ctr) } b.pin.toNat (challenge ctr) text

/-- `TOTPGEN` in full, on bound parameters (R120). -/
def generateRun (P : Params) (algok : Bool) (b : Bound) (text : List Byte) : Run :=
  match genCheck algok b with
  | some e => ⟨CodecRegs.zero, genBind b, .error e⟩
  | none => genTime P b text

/-! ## The meanings -/

/-- `TOTPGEN` (R95) over any parameters: `now` is the port `NOW`. -/
def execTotpgenWith (P : Params) (dp dt ds : Bool) (s : State) : Host.Outcome State Fault Refusal :=
  .next (s.complete (generateRun P s.algok (bindParams s.req.now dp dt ds s.req) s.req.src.bytes))

/-- `TOTPGENW` (R116) over any parameters: `now` is the wall-clock second sampled when the request was accepted. -/
def execTotpgenwWith (P : Params) (dp dt ds : Bool) (s : State) : Host.Outcome State Fault Refusal :=
  .next (s.complete (generateRun P s.algok (bindParams s.req.wallclk dp dt ds s.req) s.req.src.bytes))

/-- `TOTPGEN` (R95). -/
def execTotpgen (dp dt ds : Bool) (s : State) : Host.Outcome State Fault Refusal :=
  execTotpgenWith Config.params dp dt ds s

/-- `TOTPGENW` (R116). -/
def execTotpgenw (dp dt ds : Bool) (s : State) : Host.Outcome State Fault Refusal :=
  execTotpgenwWith Config.params dp dt ds s

end Sys2Proof.Machine
end

