-- ==== Sys2Proof/Machine/Dispatch.lean ====
section
/-! DEFINITION. The dispatch of the four operations to their meanings. `exec` ends at an operation's last moment, its
response given and its transient registers as it left them; `step` then releases them (R137; assumption log 10). -/

namespace Sys2Proof.Machine

def exec (i : Instr) (s : State) : Host.Outcome State Fault Refusal :=
  match i with
  | .b32enc => Sys2Proof.Machine.execB32enc s
  | .b32dec => Sys2Proof.Machine.execB32dec s
  | .totpgen dp dt ds => Sys2Proof.Machine.execTotpgen dp dt ds s
  | .totpgenw dp dt ds => Sys2Proof.Machine.execTotpgenw dp dt ds s

end Sys2Proof.Machine
end

