-- ==== Sys2Proof/Machine/Flags.lean ====
section
/-! DEFINITION. The core has no condition codes and no sticky flags (R18); the only condition an operation reports is
its `STATUS` code (R57). This file holds those codes. -/

namespace Sys2Proof.Machine

/-- `STATUS[3:0]` (R57). -/
def Status.code : Status → BitVec 4
  | .ok => 0
  | .invalidCharacter => 1
  | .invalidPinLength => 2
  | .unsupportedAlgorithm => 3
  | .digestTooShort => 4
  | .inputTooLong => 5
  | .invalidTimeStep => 6
  | .counterOverflow => 7
  | .illegalCommand => 8

end Sys2Proof.Machine
end

