-- ==== Sys2Proof/Machine/Platform.lean ====
section
/-! DEFINITION. The core on a platform: the step relation with the OPEN parameters of R7 as arguments (R11, R25), and
the boundary at which a bounded platform refuses (R7, R31, R139). -/

namespace Sys2Proof.Machine

/-- The four operations over any parameters (R11). -/
def execWith (P : Params) (i : Instr) (s : State) : Host.Outcome State Fault Refusal :=
  match i with
  | .b32enc => execB32enc s
  | .b32dec => execB32decWith P s
  | .totpgen dp dt ds => execTotpgenWith P dp dt ds s
  | .totpgenw dp dt ds => execTotpgenwWith P dp dt ds s

/-- The end of a request: an answer passes the boundary of a platform of capacity `cap` if its result fits (R7), and the
core releases the transient registers (R137). -/
def deliver (cap : Option Nat) : Host.Outcome State Fault Refusal → Host.Outcome State Fault Refusal
  | .next t => if admitted cap t.resp.res.len then .next t.release else .refused .resultTooLong
  | .fault f => .fault f
  | .refused e => .refused e

/-- One step over the operations `run`. With no move of the host the core is idle and nothing changes (R137, R145). A
reset restarts the core (R142), one during an operation abandons it (R144). A request is accepted, its command word
decoded before anything else is looked at (R63), and the operation runs to its response as one atomic act (R38), after
which the core is idle again (R137). An illegal command word starts no operation (R50). An operand or a result beyond
`BUF_CAP` is refused at the boundary (R7, R31, R139). -/
def stepOf (P : Params) (run : Instr → State → Host.Outcome State Fault Refusal) (s : State) :
    Host.Outcome State Fault Refusal :=
  match s.pending with
  | [] => .next s
  | .reset :: rest => .next (s.restart P.hmPresent rest)
  | .resetDuring r :: rest =>
    if admitted P.bufCap r.src.len then .next (s.abandon r P.hmPresent rest) else .refused .operandTooLong
  | .request r :: rest =>
    if admitted P.bufCap r.src.len then
      match decode r.cmd with
      | .ok i => deliver P.bufCap (run i (s.accept r rest))
      | .error _ => illegal (s.accept r rest)
    else .refused .operandTooLong

/-- One step over any parameters (R7, R25). -/
def stepWith (P : Params) (s : State) : Host.Outcome State Fault Refusal := stepOf P (execWith P) s

end Sys2Proof.Machine
end

