-- ==== Sys2Proof/Machine/Step.lean ====
section
/-! DEFINITION. One step: the host makes its next move and the core answers it (R10, R17, R38). -/

namespace Sys2Proof.Machine

/-- One step, over the instance `Config.params` of the parameters (R10, R11). -/
def step (s : State) : Host.Outcome State Fault Refusal := stepOf Config.params exec s

/-- The state in which the host's next request carries the command word `w` of `nbits` bits, with the operands that
stand on the ports (assumption log 7, 16). -/
def State.withFetchWord (s : State) (nbits w : Nat) : State :=
  { s with pending := .request { s.req with cmd := BitVec.ofNat 8 (w % 2 ^ nbits) } :: s.pending }

end Sys2Proof.Machine
end

