-- ==== Sys2Proof/Safety.lean ====
section
/-! DEFINITION. What counts as a safe state and a safe run of the core, in the terms the statements use. -/

namespace Sys2Proof.Machine

/-- The codec's registers are in the range R22 gives: at most 7 bits are held between input elements, and the bits of
`ACC` above the held ones are 0. -/
def CodecRegs.inRange (r : CodecRegs) : Prop := r.cnt.toNat ≤ 7 ∧ r.acc.toNat < 2 ^ r.cnt.toNat

/-- The generator's registers are in the range R23 gives, the buffers are canonical, `CHAL` is the big-endian form of
`CTR` (R105), and `OFF` is the low nibble of the last byte of `DIG` (R109). -/
def GenRegs.inRange (g : GenRegs) : Prop :=
  g.pinval.toNat < 10 ^ 9 ∧ g.key.wf = true ∧ g.dig.wf = true ∧ g.chal = Buffer.ofBytes (challenge g.ctr) ∧
    g.off = truncOffset g.dig.bytes

/-- A response as R58 describes it: an error delivers no byte, and `ERRCHAR` is 0 but for `InvalidCharacter`. -/
def Response.wellFormed (r : Response) : Prop :=
  r.res.wf = true ∧ (r.status ≠ .ok → r.res = Buffer.empty) ∧ (r.status ≠ .invalidCharacter → r.errchar = 0)

/-- The core is between requests: every transient register is 0 (R137, R26). -/
def State.Idle (s : State) : Prop := s.codec = CodecRegs.zero ∧ s.gen = GenRegs.zero

/-- The invariant of the machine between requests: it holds nothing but `ALGOK`, as latched at reset, and a well-formed
response. -/
def State.Inv (s : State) : Prop := s.Idle ∧ s.resp.wellFormed ∧ s.algok = Config.hmPresent

/-- The host's operand buffers are in canonical form: on the ports and in every request to come. -/
def State.OperandsCanonical (s : State) : Prop :=
  s.req.src.wf = true ∧ ∀ r, HostMove.request r ∈ s.pending ∨ HostMove.resetDuring r ∈ s.pending → r.src.wf = true

/-! ## Vocabulary of the statements -/

/-- The number whose digits in a base, most significant first, are given. -/
def numberOf (base : Nat) (digits : List Nat) : Nat := digits.foldl (fun a d => base * a + d) 0

/-- Bit `k` of the stream of a byte buffer: bit `7 - (k mod 8)` of byte `k / 8`, and 0 past the end (R32, R68). -/
def sourceBit (b : Buffer) (k : Nat) : Nat :=
  if k < 8 * b.len then (b.cells.read (k / 8)).toNat / 2 ^ (7 - k % 8) % 2 else 0

/-- The value of a symbol, 0 for a code that is none. -/
def symbolValue (c : Byte) : Nat := ((val c).getD 0).toNat

/-- Bit `k` of the stream of a symbol text: bit `4 - (k mod 5)` of symbol `k / 5` (R32, R86). -/
def symbolBit (t : List Byte) (k : Nat) : Nat := symbolValue (t.getD (k / 5) 0) / 2 ^ (4 - k % 5) % 2

/-- The bound parameters pass the checks of steps 1 and 2 (R99, R100, R101). -/
def Bound.admissible (b : Bound) : Prop :=
  1 ≤ b.pin.toInt ∧ b.pin.toInt ≤ 9 ∧ 0 < b.step.toInt ∧
    -2 ^ 63 ≤ b.now.toInt - b.start.toInt ∧ b.now.toInt - b.start.toInt < 2 ^ 63

/-- What a generator operation that succeeds leaves in `t`, its last moment, for the bound parameters `b` and the decoded secret `key`:
the registers of steps 2 to 7 and the PIN, each in the arithmetic of R101 to R114. -/
def PinDelivered (t : State) (b : Bound) (key : List Byte) : Prop :=
  let d := b.now.toInt - b.start.toInt
  let digit := fun j => (t.gen.dig.cells.read j).toNat
  let off := digit (t.gen.dig.len - 1) % 16
  let n := b.pin.toInt.toNat
  t.gen.diff.toInt = d ∧
  t.gen.ctr.toInt * b.step.toInt ≤ d ∧ d < (t.gen.ctr.toInt + 1) * b.step.toInt ∧
  t.gen.chal.len = 8 ∧
  (∀ j < 8, (t.gen.chal.cells.read j).toNat = t.gen.ctr.toNat / 256 ^ (7 - j) % 256) ∧
  t.gen.key = Buffer.ofBytes key ∧
  t.gen.dig = Buffer.ofBytes (Config.hmac key t.gen.chal.bytes).toList ∧
  t.gen.off.toNat = off ∧
  t.gen.th.toNat = numberOf 256 [digit off, digit (off + 1), digit (off + 2), digit (off + 3)] % 2 ^ 31 ∧
  t.gen.pinval.toNat = t.gen.th.toNat % 10 ^ n ∧
  t.resp.status = .ok ∧ t.resp.errchar = 0 ∧ t.resp.res.len = n ∧
  ∀ j < n, (t.resp.res.cells.read j).toNat = 0x30 + t.gen.pinval.toNat / 10 ^ (n - 1 - j) % 10

end Sys2Proof.Machine
end

