-- ==== Sys2Proof/Certificates/Slice0/Obligations.lean ====
section
/-! DEFINITION. The statements about the core, each from the numbered rules of spec/ that its docstring cites. -/

open Sys2Proof Sys2Proof.Machine

/-! ## The command word and the step -/

/-- R63: decoding follows the pseudocode's tests, in its order, on every word. -/
def Obligations.DecodeFollowsPseudocode : Prop :=
  ∀ w : Byte,
    let rsv := w.toNat / 64
    let op := w.toNat % 4
    let flags := w.toNat / 4 % 16
    let ds := w.getLsbD 3
    let dt := w.getLsbD 4
    let dp := w.getLsbD 5
    if rsv ≠ 0 then decode w = .error .reservedBits
    else if op = 3 then decode w = .error .reservedOperation
    else if op = 0 then decode w = if flags = 0 then .ok .b32enc else .error .codecFlags
    else if op = 1 then decode w = if flags = 0 then .ok .b32dec else .error .codecFlags
    else if w.getLsbD 2 = false then decode w = .ok (.totpgen dp dt ds)
    else decode w = .ok (.totpgenw dp dt ds)

/-- R50: the 18 legal values of `CMD`, and the response to every other value: `IllegalCommand`, `ERRCHAR` = 0,
`RESLEN` = 0, and no other register of the core touched (nothing is read, the primitive is not called). -/
def Obligations.IllegalCommandWords : Prop :=
  (∀ w : Byte, (∃ i, decode w = .ok i) ↔
    w ∈ [0x00, 0x01, 0x02, 0x0A, 0x12, 0x1A, 0x22, 0x2A, 0x32, 0x3A,
      0x06, 0x0E, 0x16, 0x1E, 0x26, 0x2E, 0x36, 0x3E]) ∧
  ∀ (s : State) (r : Request) (rest : List HostMove) (e : DecodeError),
    s.pending = .request r :: rest → decode r.cmd = .error e →
    step s = .next { s with req := r, pending := rest, resp := ⟨.illegalCommand, 0, ⟨[], 0⟩⟩ }

/-- R46, R47: decoding an encoded instruction gives it back, and a word that decodes is the encoding of what it
decodes to. -/
def Obligations.DecodeEncodeAgree : Prop :=
  (∀ i : Instr, decode (encode i) = .ok i) ∧ ∀ (w : Byte) (i : Instr), decode w = .ok i → encode i = w

/-- Sanity: command words written out bit by bit from R46 and R47 decode to the instructions they stand for. -/
def Obligations.SampleWordsDecode : Prop :=
  decode 0b00000000 = .ok .b32enc ∧ decode 0b00000001 = .ok .b32dec ∧
  decode 0b00111010 = .ok (.totpgen true true true) ∧ decode 0b00001010 = .ok (.totpgen false false true) ∧
  decode 0b00010110 = .ok (.totpgenw false true false) ∧ decode 0b00100110 = .ok (.totpgenw true false false)

/-- R38, R63, R137: when the host's next move is a request whose command word decodes to `i`, the step is `exec i` on the
state in which the request stands on the ports and the move is gone, and then the transient registers are released: the
core between requests holds 0 in each. The list of moves is the model's own (assumption log 7). -/
def Obligations.StepRunsDecodedInstruction : Prop :=
  ∀ (s : State) (r : Request) (rest : List HostMove) (i : Instr),
    s.pending = .request r :: rest → decode r.cmd = .ok i →
    ∃ t, exec i { s with req := r, pending := rest } = .next t ∧
      step s = .next { t with codec := CodecRegs.zero, gen := GenRegs.zero }

/-- R137, R145: with no move of the host the core is idle and nothing changes. Between requests it holds nothing but
`ALGOK` and the last response: a step from such a state ends in such a state, and so does every step that runs an
operation. What it answers to the host's moves to come then depends on `ALGOK` alone. -/
def Obligations.IdleStepChangesNothing : Prop :=
  (∀ s : State, s.pending = [] → step s = .next s) ∧
  (∀ s t : State, s.Idle → step s = .next t → t.Idle) ∧
  (∀ (s t : State) (r : Request) (rest : List HostMove) (i : Instr),
    s.pending = .request r :: rest → decode r.cmd = .ok i → step s = .next t → t.Idle) ∧
  ∀ (s s' : State) (r : Request) (rest : List HostMove), s.Idle → s'.Idle → s.algok = s'.algok →
    step { s with pending := .request r :: rest } = step { s' with pending := .request r :: rest }

/-- R154, R7, R31, R139: every step ends with an answer, never with a fault or a refusal; the model's choice of an
unbounded `BUF_CAP` for the instance (assumption log 5) is part of it. The step is the step over the OPEN parameters at
that instance; over parameters with a bounded `BUF_CAP` a request whose operand is longer is refused, and so is a result
that is longer; every other answer is delivered. -/
def Obligations.EveryStepAnswers : Prop :=
  (∀ s : State, ∃ t, step s = .next t) ∧ (∀ s : State, step s = stepWith Config.params s) ∧
  ∀ (P : Params) (cap : Nat) (s : State) (r : Request) (rest : List HostMove),
    P.bufCap = some cap → s.pending = .request r :: rest →
    (cap < r.src.len → stepWith P s = .refused .operandTooLong) ∧
    (r.src.len ≤ cap →
      (∀ i, decode r.cmd = .ok i → ∃ t, execWith P i { s with req := r, pending := rest } = .next t ∧
        (t.resp.res.len ≤ cap → stepWith P s = .next { t with codec := CodecRegs.zero, gen := GenRegs.zero }) ∧
        (cap < t.resp.res.len → stepWith P s = .refused .resultTooLong)) ∧
      ∀ e, decode r.cmd = .error e → ∃ t, stepWith P s = .next t ∧ t.resp = ⟨.illegalCommand, 0, ⟨[], 0⟩⟩)

/-! ## Reset and state -/

/-- R26: the state after reset; the core then accepts a request, whatever stands on the request ports; and since an
operation clears the transient registers at its start, their values before it are never observed. -/
def Obligations.ResetState : Prop :=
  State.reset.resp.status.code = 0 ∧ State.reset.resp.errchar = 0 ∧ State.reset.resp.res.len = 0 ∧
  State.reset.resp.res.bytes = [] ∧ State.reset.algok = Config.hmPresent ∧
  State.reset.codec = ⟨0, 0, 0⟩ ∧
  (let g := State.reset.gen
   g.tNow = 0 ∧ g.tStart = 0 ∧ g.tStep = 0 ∧ g.tPin = 0 ∧ g.diff = 0 ∧ g.ctr = 0 ∧
   g.chal.bytes = List.replicate 8 0 ∧ g.key.len = 0 ∧ g.dig.len = 0 ∧ g.off = 0 ∧ g.th = 0 ∧ g.pinval = 0) ∧
  (∀ (ports r : Request) (rest : List HostMove),
    ∃ t, step { State.reset with req := ports, pending := .request r :: rest } = .next t ∧ t.req = r ∧
      t.pending = rest) ∧
  ∀ (i : Instr) (s : State) (codec : CodecRegs) (gen : GenRegs), exec i { s with codec := codec, gen := gen } = exec i s

/-- R143: `ALGOK` is latched from `HM_PRESENT` at reset, and does not change until the next reset. -/
def Obligations.AlgokLatchedAtReset : Prop :=
  State.reset.algok = Config.hmPresent ∧
  (∀ (s : State) (rest : List HostMove),
    s.pending = .reset :: rest ∨ (∃ r, s.pending = .resetDuring r :: rest) →
    ∃ t, step s = .next t ∧ t.algok = Config.hmPresent) ∧
  ∀ (s t : State),
    (∀ rest, s.pending ≠ .reset :: rest) → (∀ r rest, s.pending ≠ .resetDuring r :: rest) →
    step s = .next t → t.algok = s.algok

/-- R142: a reset restores the reset values of the response ports and of every transient register, and a core that
has just been reset and a core that has just made any step answer the host's next request alike. -/
def Obligations.ResetThenAnswersAlike : Prop :=
  (∀ (s : State) (rest : List HostMove), s.pending = .reset :: rest →
    ∃ t, step s = .next t ∧ t.resp = State.reset.resp ∧ t.codec = State.reset.codec ∧ t.gen = State.reset.gen) ∧
  ∀ (s t : State) (r : Request) (rest : List HostMove),
    s.algok = Config.hmPresent → step s = .next t →
    ∃ u v, step { State.reset with pending := .request r :: rest } = .next u ∧
      step { t with pending := .request r :: rest } = .next v ∧ u.resp = v.resp

/-- R144: a reset during an operation abandons it. No response is given, `RESLEN` is 0, every response port and transient
register has its reset value, and nothing remains: the step did not depend on the primitive, and the host's next request
is answered exactly as by a core that was only reset. That such a reset is a move of its own is the model's choice
(assumption log 7, 9). -/
def Obligations.ResetDuringOperation : Prop :=
  ∀ (s : State) (r : Request) (rest : List HostMove), s.pending = .resetDuring r :: rest →
    ∃ t, step s = .next t ∧ t.resp.res.len = 0 ∧ t.resp = State.reset.resp ∧ t.algok = Config.hmPresent ∧
      t.codec = State.reset.codec ∧ t.gen = State.reset.gen ∧ t.pending = rest ∧
      (∀ (next : Request) (later : List HostMove),
        step { t with pending := .request next :: later } =
          step { State.reset with pending := .request next :: later }) ∧
      ∀ (P : Params) (other : List Byte → List Byte → List Byte), stepWith { P with hmac := other } s = stepWith P s

/-- R13, R131: no state passes between operations. Two cores with the same `ALGOK` and the same moves of the host to
come show the same response after every number of steps, whatever their other registers hold. -/
def Obligations.HistoryNeverMatters : Prop :=
  ∀ (s s' : State) (k : Nat), s.algok = s'.algok → s.pending = s'.pending → s.pending ≠ [] →
    ∃ t t', Sys2Proof.core.run (k + 1) s = .next t ∧ Sys2Proof.core.run (k + 1) s' = .next t' ∧ t.resp = t'.resp

/-- R49: the response depends on the ports the table lists for the operation, and on no other. -/
def Obligations.ResponseReadsListedPortsOnly : Prop :=
  (∀ s s' : State, s.req.src = s'.req.src →
    ∃ t t', exec .b32enc s = .next t ∧ exec .b32enc s' = .next t' ∧ t.resp = t'.resp) ∧
  (∀ s s' : State, s.req.src = s'.req.src →
    ∃ t t', exec .b32dec s = .next t ∧ exec .b32dec s' = .next t' ∧ t.resp = t'.resp) ∧
  (∀ (s s' : State) (dp dt ds : Bool), s.req.src = s'.req.src → s.req.now = s'.req.now → s.algok = s'.algok →
    (ds = false → s.req.start = s'.req.start) → (dt = false → s.req.step = s'.req.step) →
    (dp = false → s.req.pinlen = s'.req.pinlen) →
    ∃ t t', exec (.totpgen dp dt ds) s = .next t ∧ exec (.totpgen dp dt ds) s' = .next t' ∧ t.resp = t'.resp) ∧
  (∀ (s s' : State) (dp dt ds : Bool), s.req.src = s'.req.src → s.req.wallclk = s'.req.wallclk →
    s.algok = s'.algok →
    (ds = false → s.req.start = s'.req.start) → (dt = false → s.req.step = s'.req.step) →
    (dp = false → s.req.pinlen = s'.req.pinlen) →
    ∃ t t', exec (.totpgenw dp dt ds) s = .next t ∧ exec (.totpgenw dp dt ds) s' = .next t' ∧ t.resp = t'.resp) ∧
  ∀ (s s' : State) (r r' : Request) (rest rest' : List HostMove) (e : DecodeError),
    s.pending = .request r :: rest → s'.pending = .request r' :: rest' → r.cmd = r'.cmd → decode r.cmd = .error e →
    ∃ t t', step s = .next t ∧ step s' = .next t' ∧ t.resp = t'.resp

/-- R13, R35: executing the same request twice gives the same response (`TOTPGENW` too: the wall clock shows the same
second while the request stands on the ports, where the model leaves it between operations: assumption log 16). -/
def Obligations.RepeatedRequestSameResponse : Prop :=
  ∀ (i : Instr) (s t : State), exec i s = .next t → ∃ u, exec i t = .next u ∧ u.resp = t.resp

/-- R26, R137: the invariant of the machine holds after reset: it holds nothing but `ALGOK` and a well-formed response. -/
def Obligations.InvariantAtReset : Prop := State.reset.Inv ∧ State.reset.OperandsCanonical

/-- R19, R22, R23, R58, R105, R109, R137: every step keeps the invariant of the machine: no transient register holds
anything between requests, every buffer is canonical, the response is well formed, and `ALGOK` is as latched. And every
operation ends with its registers in range: at most 7 bits held by the codec, `PINVAL` below 10^9, `CHAL` the big-endian
form of `CTR`, `OFF` the low nibble of the last byte of `DIG`. That `exec` shows the registers at that moment, and what
they hold where an operation ends early, is the model's (assumption log 10, 14). -/
def Obligations.StepKeepsInvariant : Prop :=
  (∀ s t : State, s.Inv → s.OperandsCanonical → step s = .next t → t.Inv ∧ t.OperandsCanonical) ∧
  ∀ (i : Instr) (s t : State), exec i s = .next t → t.codec.inRange ∧ t.gen.inRange ∧ t.resp.wellFormed

/-! ## Frames -/

/-- R13, R21, R44: what a codec operation leaves unchanged. The request ports, `ALGOK`, the host's moves and every byte
of `SRC` are as before, and the generator's registers, which
are not live, are 0. It writes `RES` at the indexes below `RESLEN` only. -/
def Obligations.CodecFrame : Prop :=
  ∀ s t : State, exec .b32enc s = .next t ∨ exec .b32dec s = .next t →
    t.pending = s.pending ∧ t.req = s.req ∧ t.algok = s.algok ∧
    t.gen = ⟨0, 0, 0, 0, 0, 0, ⟨[], 8⟩, ⟨[], 0⟩, ⟨[], 0⟩, 0, 0, 0⟩ ∧
    (∀ a, t.req.src.cells.read a = s.req.src.cells.read a) ∧
    ∀ a, t.resp.res.len ≤ a → t.resp.res.cells.read a = unlistedByte

/-- R13, R21, R44: what a generator operation leaves unchanged: the request ports, `ALGOK`, the host's moves and every
byte of `SRC`. It writes each of `RES`, `KEY`, `CHAL` and `DIG` at indexes below its length only. The transient registers
may change until the step releases them (assumption log 10). -/
def Obligations.GeneratorFrame : Prop :=
  ∀ (dp dt ds : Bool) (s t : State),
    exec (.totpgen dp dt ds) s = .next t ∨ exec (.totpgenw dp dt ds) s = .next t →
    t.pending = s.pending ∧ t.req = s.req ∧ t.algok = s.algok ∧
    (∀ a, t.req.src.cells.read a = s.req.src.cells.read a) ∧
    (∀ a, t.resp.res.len ≤ a → t.resp.res.cells.read a = unlistedByte) ∧
    (∀ a, t.gen.key.len ≤ a → t.gen.key.cells.read a = unlistedByte) ∧
    (∀ a, t.gen.chal.len ≤ a → t.gen.chal.cells.read a = unlistedByte) ∧
    ∀ a, t.gen.dig.len ≤ a → t.gen.dig.cells.read a = unlistedByte

/-! ## The alphabet -/

/-- R51: the alphabet table, row by row; `VAL` is its inverse and is defined on the 32 codes only. -/
def Obligations.AlphabetTable : Prop :=
  ((List.range 32).map (fun v => alpha (BitVec.ofNat 5 v)) =
    [0x41, 0x42, 0x43, 0x44, 0x45, 0x46, 0x47, 0x48, 0x49, 0x4A, 0x4B, 0x4C, 0x4D, 0x4E, 0x4F, 0x50,
      0x51, 0x52, 0x53, 0x54, 0x55, 0x56, 0x57, 0x58, 0x59, 0x5A, 0x32, 0x33, 0x34, 0x35, 0x36, 0x37]) ∧
  (∀ v : BitVec 5, val (alpha v) = some v) ∧ (∀ (c : Byte) (v : BitVec 5), val c = some v → c = alpha v) ∧
  (∀ c ∈ ([0x30, 0x31, 0x38, 0x39] : List Byte), val c = none) ∧
  enc [0x66, 0x6F, 0x6F] = [0x4D, 0x5A, 0x58, 0x57, 0x36]

/-- R52: every code is in exactly one class, for every setting of `TRIM_SET`: a symbol, a lower-case letter (which
folds to a symbol), `'-'`, space, `'='`, trim whitespace other than space, or invalid; folding changes no other
code; and the codes 0x80 to 0xFF are invalid (R53). -/
def Obligations.CharacterClasses : Prop :=
  ∀ (P : Params) (c : Byte),
    let trimOnly := inTrimSet P c && c != 0x20
    let other := !isSymbol c && !isLower c && !isSep c && !isPad c && !inTrimSet P c
    ([isSymbol c, isLower c, c == 0x2D, c == 0x20, isPad c, trimOnly, other].count true = 1) ∧
    (isLower c = true → upperChar c = c - 0x20 ∧ isSymbol (upperChar c) = true) ∧
    (isLower c = false → upperChar c = c) ∧ (0x80 ≤ c.toNat → other = true)

/-! ## `B32ENC` -/

/-- R68: below the length guard `B32ENC` delivers the text whose symbols are the 5-bit groups of the source's bit
stream, zero-extended; and each symbol value is a base-32 digit of the source read as one number. -/
def Obligations.EncodeResult : Prop :=
  ∀ s : State, s.req.src.len < 2 ^ 28 →
    let n := s.req.src.len
    let m := (8 * n + 4) / 5
    let b := sourceBit s.req.src
    let v := fun j => 16 * b (5 * j) + 8 * b (5 * j + 1) + 4 * b (5 * j + 2) + 2 * b (5 * j + 3) + b (5 * j + 4)
    let N := numberOf 256 (s.req.src.bytes.map (fun c => c.toNat))
    5 * m - 8 * n = [0, 2, 4, 1, 3].getD (n % 5) 0 ∧
    ∃ t, exec .b32enc s = .next t ∧ t.resp.status = .ok ∧ t.resp.errchar = 0 ∧ t.resp.res.len = m ∧
      ∀ j < m, t.resp.res.cells.read j = alpha (BitVec.ofNat 5 (v j)) ∧
        v j = N * 2 ^ (5 * m - 8 * n) / 32 ^ (m - 1 - j) % 32

/-- R66: the length guard. At 2^28 bytes and above the input is rejected before any byte is read (the response
is the same whatever the bytes are); below, it is accepted. -/
def Obligations.EncodeLengthGuard : Prop :=
  ∀ s : State,
    (2 ^ 28 ≤ s.req.src.len → ∃ t, exec .b32enc s = .next t ∧ t.resp.status = .inputTooLong ∧
      t.resp.status.code = 5 ∧ t.resp.errchar = 0 ∧ t.resp.res.len = 0 ∧
      ∀ cells, ∃ u, exec .b32enc { s with req := { s.req with src := ⟨cells, s.req.src.len⟩ } } = .next u ∧
        u.resp = t.resp) ∧
    (s.req.src.len < 2 ^ 28 → ∃ t, exec .b32enc s = .next t ∧ t.resp.status = .ok)

/-- R67: empty input gives the empty string. -/
def Obligations.EncodeEmpty : Prop :=
  ∀ s : State, s.req.src.len = 0 → ∃ t, exec .b32enc s = .next t ∧ t.resp.status = .ok ∧ t.resp.res.len = 0

/-- R69: the output's length by the residue of the input's, the lengths no output has, and the longest output. -/
def Obligations.EncodeLengths : Prop :=
  (∀ (bytes : List Byte) (k r : Nat), r < 5 → bytes.length = 5 * k + r →
    (enc bytes).length = 8 * k + [0, 2, 4, 5, 7].getD r 0) ∧
  (∀ bytes : List Byte, 5 * (enc bytes).length < 8 * bytes.length + 5 ∧ 8 * bytes.length ≤ 5 * (enc bytes).length ∧
    (enc bytes).length % 8 ≠ 1 ∧ (enc bytes).length % 8 ≠ 3 ∧ (enc bytes).length % 8 ≠ 6) ∧
  encLen (2 ^ 28 - 1) = 429496728

/-- R70: the output holds alphabet codes only: no padding, no separator, no lower-case letter. -/
def Obligations.EncodeAlphabetOnly : Prop :=
  ∀ s t : State, exec .b32enc s = .next t →
    ∀ c ∈ t.resp.res.bytes, (∃ v, c = alpha v) ∧ isPad c = false ∧ isSep c = false ∧ isLower c = false

/-- R72: the streaming encoder computes `Enc`, and after `i` input bytes its registers hold what the rule's invariant
says: `CNT` and `ACC` are the stream bits taken in and not yet put out. -/
def Obligations.EncodeStreamingAgrees : Prop :=
  ∀ bytes : List Byte,
    (encStream bytes).2 = enc bytes ∧
    ∀ i ≤ bytes.length,
      let q := 8 * i / 5
      let run := encLoop CodecRegs.zero [] (bytes.take i)
      run.2 = (enc bytes).take q ∧ run.1.idx = i ∧ run.1.cnt.toNat = 8 * i - 5 * q ∧
      run.1.acc.toNat = natOfBits ((byteStream bytes).extract (5 * q) (8 * i))

/-- R75 (a): `Enc` is injective. -/
def Obligations.EncodeInjective : Prop := ∀ x y : List Byte, enc x = enc y → x = y

/-- R75 (c), (d): the padding bits of the last symbol are 0, and encoding distributes over a split at a multiple of 5
bytes. -/
def Obligations.EncodeSplits : Prop :=
  (∀ (x : List Byte) (c : Byte), (enc x).getLast? = some c →
    symbolValue c % 2 ^ (5 * (enc x).length - 8 * x.length) = 0) ∧
  ∀ x y : List Byte, x.length % 5 = 0 → enc (x ++ y) = enc x ++ enc y

/-! ## `B32DEC` -/

/-- R79: `Trim` removes the longest run of `TRIM_SET` codes at each end; the set holds space and no symbol, lower-case
letter, `'-'` or `'='`, and it can be any set of character codes that does so (0x80 to 0xFF are no characters: R53); the
default is 0x00 to 0x20. -/
def Obligations.TrimRemovesLongestRuns : Prop :=
  ∀ (P : Params) (t : List Byte),
    (∃ p q, t = p ++ trim P t ++ q ∧ (∀ c ∈ p, inTrimSet P c = true) ∧ (∀ c ∈ q, inTrimSet P c = true) ∧
      (∀ c, (trim P t).head? = some c → inTrimSet P c = false) ∧
      (∀ c, (trim P t).getLast? = some c → inTrimSet P c = false)) ∧
    inTrimSet P 0x20 = true ∧
    (∀ c, inTrimSet P c = true → isSymbol c = false ∧ isLower c = false ∧ c ≠ 0x2D ∧ c ≠ 0x3D ∧ c.toNat < 0x80) ∧
    (∀ S : Byte → Bool, S 0x20 = true →
      (∀ c, S c = true → isSymbol c = false ∧ isLower c = false ∧ c ≠ 0x2D ∧ c ≠ 0x3D ∧ c.toNat < 0x80) →
      ∀ c, inTrimSet { P with trimSet := S } c = S c) ∧
    ∀ c : Byte, inTrimSet Config.defaults c = true ↔ c.toNat ≤ 0x20

/-- R78, R80, R81, R82: the four cleaning steps in their order, the separators deleted wherever they stand, the longest
trailing run of `'='` stripped, each lower-case letter raised by 0x20 and every other code kept. -/
def Obligations.CleaningSteps : Prop :=
  ∀ (P : Params) (t : List Byte),
    clean P t = upper (stripPad (removeSep (trim P t))) ∧
    removeSep t = t.filter (fun c => c != 0x2D && c != 0x20) ∧
    (∃ k, t = stripPad t ++ List.replicate k 0x3D ∧ (stripPad t).getLast? ≠ some 0x3D) ∧
    (upper t).length = t.length ∧
    ∀ j (h : j < t.length), (upper t)[j]? =
      some (if 0x61 ≤ t[j].toNat ∧ t[j].toNat ≤ 0x7A then t[j] - 0x20 else t[j])

/-- R86: when every element of the cleaned text is a symbol, `B32DEC` delivers the whole bytes of the symbol stream; and
each is a base-256 digit of the text read as one number. -/
def Obligations.DecodeResult : Prop :=
  ∀ s : State,
    let t4 := clean Config.params s.req.src.bytes
    let m := t4.length
    let b := symbolBit t4
    let v := fun i => 128 * b (8 * i) + 64 * b (8 * i + 1) + 32 * b (8 * i + 2) + 16 * b (8 * i + 3) +
      8 * b (8 * i + 4) + 4 * b (8 * i + 5) + 2 * b (8 * i + 6) + b (8 * i + 7)
    let S := numberOf 32 (t4.map symbolValue)
    (∀ c ∈ t4, isSymbol c = true) →
    ∃ t, exec .b32dec s = .next t ∧ t.resp.status = .ok ∧ t.resp.errchar = 0 ∧ t.resp.res.len = 5 * m / 8 ∧
      ∀ i < 5 * m / 8, (t.resp.res.cells.read i).toNat = v i ∧ v i = S / 2 ^ (5 * m - 8 * (i + 1)) % 256

/-- R85, R90: the first element of the cleaned text that is no symbol ends `B32DEC` with `InvalidCharacter` and that
element, and nothing is delivered, whatever stands before and after it. -/
def Obligations.DecodeFirstInvalid : Prop :=
  ∀ (s : State) (p q : List Byte) (c : Byte),
    clean Config.params s.req.src.bytes = p ++ c :: q → (∀ x ∈ p, isSymbol x = true) → isSymbol c = false →
    ∃ t, exec .b32dec s = .next t ∧ t.resp.status = .invalidCharacter ∧ t.resp.errchar = c ∧ t.resp.res.len = 0

/-- R89: the streaming decoder computes rules R85 and R86, and after `j` symbols its registers hold what the rule's
invariant says. -/
def Obligations.DecodeStreamingAgrees : Prop :=
  (∀ (p q : List Byte) (c : Byte), (∀ x ∈ p, isSymbol x = true) → isSymbol c = false →
    (decStream CodecRegs.zero [] (p ++ c :: q)).2 = .error c) ∧
  ∀ t : List Byte, (∀ x ∈ t, isSymbol x = true) →
    (decStream CodecRegs.zero [] t).2 = .ok (decBits t) ∧
    ∀ j ≤ t.length,
      let q := 5 * j / 8
      let run := decStream CodecRegs.zero [] (t.take j)
      run.2 = .ok ((decBits t).take q) ∧ run.1.idx = j ∧ run.1.cnt.toNat = 5 * j - 8 * q ∧
      run.1.acc.toNat = natOfBits ((symbolStream t).extract (8 * q) (5 * j))

/-- R84: texts that clean to nothing decode to the empty byte array: `TRIM_SET` codes only, or any mixture of spaces,
`'-'` and `'='`. -/
def Obligations.DecodeEmptyTexts : Prop :=
  ∀ s : State,
    (∀ c ∈ s.req.src.bytes, inTrimSet Config.params c = true) ∨
      (∀ c ∈ s.req.src.bytes, isSep c = true ∨ isPad c = true) →
    ∃ t, exec .b32dec s = .next t ∧ t.resp.status = .ok ∧ t.resp.errchar = 0 ∧ t.resp.res.len = 0

/-- R92: encoding and then decoding the text that was delivered gives back the source's bytes with status `OK`. -/
def Obligations.RoundTrip : Prop :=
  ∀ s : State, s.req.src.len < 2 ^ 28 →
    ∃ t u, exec .b32enc s = .next t ∧ exec .b32dec { t with req := { t.req with src := t.resp.res } } = .next u ∧
      u.resp.status = .ok ∧ u.resp.res.bytes = s.req.src.bytes

/-- R93 (b): a further symbol leaves the decoded bytes as they were exactly when it completes no byte, that is when the
length modulo 8 is 0, 2 or 5; its value does not matter. -/
def Obligations.ExtraSymbolIgnored : Prop :=
  ∀ (P : Params) (t : List Byte) (c : Byte), (∀ x ∈ t, isSymbol x = true) → isSymbol c = true →
    (dec P (t ++ [c]) = dec P t ↔ t.length % 8 = 0 ∨ t.length % 8 = 2 ∨ t.length % 8 = 5)

/-- R83 (d), R123: an offending character is a code of the raw text, unchanged, and no symbol, lower-case letter or
separator. -/
def Obligations.OffenderIsRawCode : Prop :=
  ∀ (s t : State), exec .b32dec s = .next t → t.resp.status = .invalidCharacter →
    t.resp.errchar ∈ s.req.src.bytes ∧ isSymbol t.resp.errchar = false ∧ isLower t.resp.errchar = false ∧
      isSep t.resp.errchar = false

/-- R80, R83, R93 (c): in a text whose only code of `TRIM_SET` is space, separators can be left out wherever they stand, and letters can
be written in either case. -/
def Obligations.SeparatorsAndCaseTolerated : Prop :=
  ∀ (P : Params) (t : List Byte), (∀ c ∈ t, inTrimSet P c = true → c = 0x20) →
    dec P t = dec P (t.filter (fun c => !isSep c)) ∧ dec P t = dec P (t.map upperChar)

/-- R31, R87: a decode delivers at most `floor(5 * SRCLEN / 8)` bytes. -/
def Obligations.DecodeLengthBound : Prop :=
  ∀ s t : State, exec .b32dec s = .next t → t.resp.res.len ≤ 5 * s.req.src.len / 8

/-! ## The generator -/

/-- R48: each of the four parameters is bound to its port or to its default by its own flag, for each of the 16 flag
combinations, and the operation runs on the bound values (`now`, `start`, `step`, `pinLength` in this order). -/
def Obligations.DefaultBinding : Prop :=
  ∀ (dp dt ds : Bool) (s : State),
    let start : Time := if ds then 0 else s.req.start
    let step : Time := if dt then 30 else s.req.step
    let pin : PinLen := if dp then 6 else s.req.pinlen
    let run := fun now : Time => generateRun Config.params s.algok ⟨now, start, step, pin⟩ s.req.src.bytes
    exec (.totpgen dp dt ds) s = .next (s.complete (run s.req.now)) ∧
    exec (.totpgenw dp dt ds) s = .next (s.complete (run s.req.wallclk))

/-- R98: without the primitive every generator operation ends with `UnsupportedAlgorithm`, whatever its operands. -/
def Obligations.UnsupportedWithoutPrimitive : Prop :=
  ∀ (dp dt ds : Bool) (s : State), s.algok = false →
    (∃ t, exec (.totpgen dp dt ds) s = .next t ∧ t.resp.status = .unsupportedAlgorithm ∧ t.resp.errchar = 0 ∧
      t.resp.res.len = 0) ∧
    ∃ t, exec (.totpgenw dp dt ds) s = .next t ∧ t.resp.status = .unsupportedAlgorithm ∧ t.resp.errchar = 0 ∧
      t.resp.res.len = 0

/-- R99: with the primitive present, a generator operation ends with `InvalidPinLength` exactly when the bound PIN length
is not in 1 to 9, whatever the other operands; with `DP` = 1 it never does. -/
def Obligations.PinLengthChecked : Prop :=
  ∀ (dp dt ds : Bool) (s t : State), s.algok = true →
    exec (.totpgen dp dt ds) s = .next t ∨ exec (.totpgenw dp dt ds) s = .next t →
    (t.resp.status = .invalidPinLength ↔
      dp = false ∧ ¬(1 ≤ s.req.pinlen.toInt ∧ s.req.pinlen.toInt ≤ 9))

/-- R100: with the primitive present and a legal PIN length, a generator operation ends with `InvalidTimeStep` exactly
when the bound step is not positive, and delivers nothing then. -/
def Obligations.TimeStepChecked : Prop :=
  ∀ (dp dt ds : Bool) (s t : State), s.algok = true →
    (dp = false → 1 ≤ s.req.pinlen.toInt ∧ s.req.pinlen.toInt ≤ 9) →
    exec (.totpgen dp dt ds) s = .next t ∨ exec (.totpgenw dp dt ds) s = .next t →
    (t.resp.status = .invalidTimeStep ↔ dt = false ∧ s.req.step.toInt ≤ 0) ∧
    (t.resp.status = .invalidTimeStep → t.resp.res.len = 0)

/-- R101: the difference is exact. Outside 64 bits signed the policy `fault` ends with `CounterOverflow`, and the policy
`wrap` goes on as for a difference reduced modulo 2^64; with the default start it is never outside. -/
def Obligations.DifferenceOutside64Bits : Prop :=
  (∀ (P : Params) (b : Bound) (text : List Byte), 1 ≤ b.pin.toInt → b.pin.toInt ≤ 9 → 0 < b.step.toInt →
    let d := b.now.toInt - b.start.toInt
    (generateRun P true b text).gen.diff.toInt = d ∧
    (P.overflow = .fault →
      ((generateRun P true b text).result = .error .counterOverflow ↔ d < -2 ^ 63 ∨ 2 ^ 63 - 1 < d)) ∧
    (P.overflow = .wrap → (generateRun P true b text).result ≠ .error .counterOverflow ∧
      ((d < -2 ^ 63 ∨ 2 ^ 63 - 1 < d) → ∀ e : Int, -2 ^ 63 ≤ e → e < 2 ^ 63 → (2 ^ 64 ∣ d - e) →
        (generateRun P true b text).gen.ctr.toInt = e.fdiv b.step.toInt))) ∧
  ∀ now : Time, fitsTime (now.toInt - Config.defStart.toInt) = true

/-- R101, R120, R122: under the policy `fault`, the spec's default, both generator operations report `CounterOverflow` for
a difference outside 64 bits, before the secret is looked at (the codec's registers stay cleared, assumption log 14);
under `wrap` they never do. `exec` is these operations at the instance's policy, which is left open (assumption log 4). -/
def Obligations.CounterOverflowReported : Prop :=
  (∀ (i : Instr) (s : State), exec i s = execWith Config.params i s) ∧
  ∀ (P : Params) (dp dt ds : Bool) (s : State) (i : Instr) (b : Bound), s.algok = true →
    (i = .totpgen dp dt ds ∧ b = bindParams s.req.now dp dt ds s.req) ∨
      (i = .totpgenw dp dt ds ∧ b = bindParams s.req.wallclk dp dt ds s.req) →
    1 ≤ b.pin.toInt → b.pin.toInt ≤ 9 → 0 < b.step.toInt →
    (b.now.toInt - b.start.toInt < -2 ^ 63 ∨ 2 ^ 63 ≤ b.now.toInt - b.start.toInt) →
    ∃ t, execWith P i s = .next t ∧
      (P.overflow = .fault → t.resp.status = .counterOverflow ∧ t.resp.res.len = 0 ∧ t.codec = ⟨0, 0, 0⟩) ∧
      (P.overflow = .wrap → t.resp.status ≠ .counterOverflow)

/-- R102, R103, R104: for a positive step and a difference within 64 bits, the two-branch formula with truncating
division is the mathematical floor, and the Counter fits its 64 bits. -/
def Obligations.CounterIsFloor : Prop :=
  ∀ d step : Int, 0 < step → -2 ^ 63 ≤ d → d ≤ 2 ^ 63 - 1 →
    counterTwoBranch d step = counter d step ∧
    counter d step * step ≤ d ∧ d < (counter d step + 1) * step ∧
    -2 ^ 63 ≤ counter d step ∧ counter d step ≤ 2 ^ 63 - 1 ∧
    (counter d step = -2 ^ 63 → d = -2 ^ 63 ∧ step = 1) ∧
    (BitVec.ofInt 64 (counter d step)).toInt = counter d step

/-- R54: the Challenge is the Counter's 64-bit pattern, most significant byte first. -/
def Obligations.ChallengeBigEndian : Prop :=
  (∀ ctr : Time, (challenge ctr).length = 8 ∧ numberOf 256 ((challenge ctr).map (fun c => c.toNat)) = ctr.toNat ∧
    ∀ i < 8, ((challenge ctr).getD i 0).toNat = ctr.toNat / 256 ^ (7 - i) % 256) ∧
  challenge (BitVec.ofInt 64 1) = [0, 0, 0, 0, 0, 0, 0, 1] ∧
  challenge (BitVec.ofInt 64 (-1)) = [0xFF, 0xFF, 0xFF, 0xFF, 0xFF, 0xFF, 0xFF, 0xFF] ∧
  challenge (BitVec.ofInt 64 (-2)) = [0xFF, 0xFF, 0xFF, 0xFF, 0xFF, 0xFF, 0xFF, 0xFE]

/-- R106: the secret is decoded as `B32DEC` decodes it. On an invalid character the operation answers as `B32DEC` does,
and the primitive is not called (the run is the same for every primitive); otherwise the key is the bytes `B32DEC`
delivers, and no invalid character is reported. -/
def Obligations.SecretDecodedAsB32dec : Prop :=
  ∀ (dp dt ds : Bool) (s u : State) (b : Bound), s.algok = true → exec .b32dec s = .next u → b.admissible →
    (∀ t : State,
      (b = bindParams s.req.now dp dt ds s.req ∧ exec (.totpgen dp dt ds) s = .next t) ∨
        (b = bindParams s.req.wallclk dp dt ds s.req ∧ exec (.totpgenw dp dt ds) s = .next t) →
      (u.resp.status = .invalidCharacter → t.resp = u.resp) ∧
      (u.resp.status = .ok → t.resp.status ≠ .invalidCharacter)) ∧
    let run := generateRun Config.params true b s.req.src.bytes
    (u.resp.status = .invalidCharacter → ∀ other : List Byte → List Byte → List Byte,
      generateRun { Config.params with hmac := other } true b s.req.src.bytes = run) ∧
    (u.resp.status = .ok → run.gen.key.bytes = u.resp.res.bytes)

/-- R120: `TOTPGEN` with the primitive present, admissible parameters and a decodable secret delivers the PIN. The digest
is that of the configured 20-byte primitive, whatever it computes (assumption log 1). The registers of R23 are those
of the operation's last moment, before the step releases them (assumption log 10). -/
def Obligations.TotpgenDeliversPin : Prop :=
  ∀ (dp dt ds : Bool) (s : State) (key : List Byte), s.algok = true →
    (bindParams s.req.now dp dt ds s.req).admissible → dec Config.params s.req.src.bytes = .ok key →
    ∃ t, exec (.totpgen dp dt ds) s = .next t ∧ PinDelivered t (bindParams s.req.now dp dt ds s.req) key

/-- R116, R120: `TOTPGENW` likewise, for the wall-clock second in place of `NOW` (assumption log 1 and 10 as there). -/
def Obligations.TotpgenwDeliversPin : Prop :=
  ∀ (dp dt ds : Bool) (s : State) (key : List Byte), s.algok = true →
    (bindParams s.req.wallclk dp dt ds s.req).admissible → dec Config.params s.req.src.bytes = .ok key →
    ∃ t, exec (.totpgenw dp dt ds) s = .next t ∧ PinDelivered t (bindParams s.req.wallclk dp dt ds s.req) key

/-- R116: `TOTPGENW` with `WALLCLK` = `w` gives the same response as `TOTPGEN` with `NOW` = `w` and the same other
operands; `NOW` is ignored. -/
def Obligations.WallclockFormEquivalent : Prop :=
  ∀ (dp dt ds : Bool) (s : State) (w now : Time),
    ∃ t u, exec (.totpgenw dp dt ds) { s with req := { s.req with wallclk := w, now := now } } = .next t ∧
      exec (.totpgen dp dt ds) { s with req := { s.req with now := w } } = .next u ∧ t.resp = u.resp

/-- R109, R110, R111: truncation of any digest. An empty digest, or a window that does not fit, is `DigestTooShort`
(certain for 1 to 3 bytes, impossible from 19 up); otherwise `OFF` is the low nibble of the last byte and `TH` the
big-endian window without its top bit. -/
def Obligations.TruncationOfDigest : Prop :=
  ∀ (g : GenRegs) (codec : CodecRegs) (n : Nat) (dig : List Byte),
    let L := dig.length
    let d := fun j => (dig.getD j 0).toNat
    let off := d (L - 1) % 16
    let run := genPin g codec n dig
    (L = 0 → run.result = .error .digestTooShort) ∧
    (1 ≤ L → run.gen.off.toNat = off) ∧
    (1 ≤ L → L < off + 4 → run.result = .error .digestTooShort) ∧
    (1 ≤ L → off + 4 ≤ L → run.result ≠ .error .digestTooShort ∧
      run.gen.th.toNat = numberOf 256 [d off, d (off + 1), d (off + 2), d (off + 3)] % 2 ^ 31) ∧
    (L ≤ 3 → run.result = .error .digestTooShort) ∧ (19 ≤ L → run.result ≠ .error .digestTooShort)

/-- R126, R108: with the configured 20-byte primitive no operation reports `DigestTooShort`. -/
def Obligations.ConfiguredDigestNeverTooShort : Prop :=
  ∀ (i : Instr) (s t : State), exec i s = .next t → t.resp.status ≠ .digestTooShort

/-- R56: the PIN of a value below `10^n` has exactly `n` ASCII digits, most significant first, and reads back as the
value. -/
def Obligations.PinFormat : Prop :=
  (∀ v n : Nat, v < 10 ^ n →
    (formatPin v n).length = n ∧
    (∀ c ∈ formatPin v n, 0x30 ≤ c.toNat ∧ c.toNat ≤ 0x39) ∧
    (∀ i < n, ((formatPin v n).getD i 0).toNat = 0x30 + v / 10 ^ (n - 1 - i) % 10) ∧
    numberOf 10 ((formatPin v n).map (fun c => c.toNat - 0x30)) = v) ∧
  formatPin 42 6 = [0x30, 0x30, 0x30, 0x30, 0x34, 0x32]

/-- R108, R133: the primitive is called with the decoded secret and the Challenge and with nothing else: a primitive that
agrees there gives the same run; and an operation that fails before step 5 does not call it at all. -/
def Obligations.PrimitiveCalledOnKeyAndChallenge : Prop :=
  ∀ (P : Params) (other : List Byte → List Byte → List Byte) (algok : Bool) (b : Bound) (text : List Byte),
    let run := generateRun P algok b text
    let run' := generateRun { P with hmac := other } algok b text
    (P.hmac run.gen.key.bytes run.gen.chal.bytes = other run.gen.key.bytes run.gen.chal.bytes → run' = run) ∧
    ((∃ e, run.result = .error e ∧ e ≠ .digestTooShort) → run' = run)

/-- R119: every `now` in the window of Counter `c` gives Counter `c` and the same response, and
`now = start + (c + 1) * step` gives Counter `c + 1`. -/
def Obligations.TimeStepWindow : Prop :=
  ∀ (dp dt ds : Bool) (s : State) (now now' : Time) (c : Int),
    let b := bindParams now dp dt ds s.req
    let b' := bindParams now' dp dt ds s.req
    let ctr := fun x : Bound => counter (x.now.toInt - x.start.toInt) x.step.toInt
    b.admissible → b'.admissible →
    b.start.toInt + c * b.step.toInt ≤ now.toInt → now.toInt ≤ b.start.toInt + (c + 1) * b.step.toInt - 1 →
    ctr b = c ∧
    (now'.toInt = b.start.toInt + (c + 1) * b.step.toInt → ctr b' = c + 1) ∧
    (b.start.toInt + c * b.step.toInt ≤ now'.toInt → now'.toInt ≤ b.start.toInt + (c + 1) * b.step.toInt - 1 →
      ∃ t t', exec (.totpgen dp dt ds) { s with req := { s.req with now := now } } = .next t ∧
        exec (.totpgen dp dt ds) { s with req := { s.req with now := now' } } = .next t' ∧ t'.resp = t.resp)

/-- R117: with start 0 and step 1 the Counter is the time itself, and the operation answers from the digest of the
time's own 8 bytes. -/
def Obligations.HotpSpecialCase : Prop :=
  ∀ (s : State) (dp : Bool), s.algok = true → s.req.start = 0 → s.req.step = 1 →
    (bindParams s.req.now dp false false s.req).admissible →
    counter (s.req.now.toInt - s.req.start.toInt) s.req.step.toInt = s.req.now.toInt ∧
    ∃ t, exec (.totpgen dp false false) s = .next t ∧
      t.resp = Response.of (genDigest Config.params GenRegs.zero (if dp then 6 else s.req.pinlen.toNat)
        (challenge s.req.now) s.req.src.bytes).result

/-! ## Errors -/

/-- R58: on `OK` `ERRCHAR` is 0; on any other status nothing is delivered, and `ERRCHAR` is 0 unless the status is
`InvalidCharacter`, when it is the code the decoder stopped on. -/
def Obligations.ErrorResponses : Prop :=
  ∀ (i : Instr) (s t : State), exec i s = .next t →
    (t.resp.status = .ok → t.resp.errchar = 0) ∧
    (t.resp.status ≠ .ok → t.resp.res.len = 0 ∧ t.resp.res.bytes = []) ∧
    (t.resp.status ≠ .invalidCharacter → t.resp.errchar = 0) ∧
    (t.resp.status = .invalidCharacter → dec Config.params s.req.src.bytes = .error t.resp.errchar)

/-- R57: the status codes, and which operation can report which. -/
def Obligations.StatusCodes : Prop :=
  ([Status.ok, .invalidCharacter, .invalidPinLength, .unsupportedAlgorithm, .digestTooShort, .inputTooLong,
      .invalidTimeStep, .counterOverflow, .illegalCommand].map (fun x => x.code.toNat) = [0, 1, 2, 3, 4, 5, 6, 7, 8]) ∧
  (∀ x : Status, x.code.toNat ≤ 8) ∧
  (∀ s t : State, exec .b32enc s = .next t → t.resp.status = .ok ∨ t.resp.status = .inputTooLong) ∧
  (∀ s t : State, exec .b32dec s = .next t → t.resp.status = .ok ∨ t.resp.status = .invalidCharacter) ∧
  ∀ (dp dt ds : Bool) (s t : State), exec (.totpgen dp dt ds) s = .next t ∨ exec (.totpgenw dp dt ds) s = .next t →
    t.resp.status ≠ .inputTooLong ∧ t.resp.status ≠ .illegalCommand

/-- R129: the error a generator operation reports is the first in the rule's order; here for any primitive and any
`TRIM_SET`, at the policy `fault`. -/
def Obligations.ErrorPriority : Prop :=
  ∀ (P : Params) (algok : Bool) (b : Bound) (text : List Byte), P.overflow = .fault →
    let d := b.now.toInt - b.start.toInt
    let result := (generateRun P algok b text).result
    if algok = false then result = .error .unsupportedAlgorithm
    else if ¬(1 ≤ b.pin.toInt ∧ b.pin.toInt ≤ 9) then result = .error .invalidPinLength
    else if b.step.toInt ≤ 0 then result = .error .invalidTimeStep
    else if d < -2 ^ 63 ∨ 2 ^ 63 - 1 < d then result = .error .counterOverflow
    else
      match dec P text with
      | .error c => result = .error (.invalidCharacter c)
      | .ok key =>
        let dig := P.hmac key (challenge (BitVec.ofInt 64 (d.fdiv b.step.toInt)))
        if dig = [] ∨ dig.length < (dig.getD (dig.length - 1) 0).toNat % 16 + 4 then
          result = .error .digestTooShort
        else ∃ pin, result = .ok pin
end

