-- ==== Sys2Proof/Laws/State.lean ====
section
/-! SUPPORT. The fields of the state after each named update, one lemma a field. -/

namespace Sys2Proof.Machine

variable (s : State) (r : Request) (present : Bool) (rest : List HostMove) (run : Run)

@[simp] theorem State.accept_pending : (s.accept r rest).pending = rest := rfl
@[simp] theorem State.accept_req : (s.accept r rest).req = r := rfl
@[simp] theorem State.accept_resp : (s.accept r rest).resp = s.resp := rfl
@[simp] theorem State.accept_algok : (s.accept r rest).algok = s.algok := rfl
@[simp] theorem State.accept_codec : (s.accept r rest).codec = s.codec := rfl
@[simp] theorem State.accept_gen : (s.accept r rest).gen = s.gen := rfl

@[simp] theorem State.restart_pending : (s.restart present rest).pending = rest := rfl
@[simp] theorem State.restart_req : (s.restart present rest).req = s.req := rfl
@[simp] theorem State.restart_resp : (s.restart present rest).resp = ⟨.ok, 0, Buffer.empty⟩ := rfl
@[simp] theorem State.restart_algok : (s.restart present rest).algok = present := rfl
@[simp] theorem State.restart_codec : (s.restart present rest).codec = CodecRegs.zero := rfl
@[simp] theorem State.restart_gen : (s.restart present rest).gen = GenRegs.zero := rfl

@[simp] theorem State.abandon_pending : (s.abandon r present rest).pending = rest := rfl
@[simp] theorem State.abandon_req : (s.abandon r present rest).req = r := rfl
@[simp] theorem State.abandon_resp : (s.abandon r present rest).resp = ⟨.ok, 0, Buffer.empty⟩ := rfl
@[simp] theorem State.abandon_algok : (s.abandon r present rest).algok = present := rfl
@[simp] theorem State.abandon_codec : (s.abandon r present rest).codec = CodecRegs.zero := rfl
@[simp] theorem State.abandon_gen : (s.abandon r present rest).gen = GenRegs.zero := rfl

@[simp] theorem State.complete_pending : (s.complete run).pending = s.pending := rfl
@[simp] theorem State.complete_req : (s.complete run).req = s.req := rfl
@[simp] theorem State.complete_resp : (s.complete run).resp = Response.of run.result := rfl
@[simp] theorem State.complete_algok : (s.complete run).algok = s.algok := rfl
@[simp] theorem State.complete_codec : (s.complete run).codec = run.codec := rfl
@[simp] theorem State.complete_gen : (s.complete run).gen = run.gen := rfl

@[simp] theorem State.release_pending : s.release.pending = s.pending := rfl
@[simp] theorem State.release_req : s.release.req = s.req := rfl
@[simp] theorem State.release_resp : s.release.resp = s.resp := rfl
@[simp] theorem State.release_algok : s.release.algok = s.algok := rfl
@[simp] theorem State.release_codec : s.release.codec = CodecRegs.zero := rfl
@[simp] theorem State.release_gen : s.release.gen = GenRegs.zero := rfl

@[simp] theorem Response.of_ok (bytes : List Byte) : Response.of (.ok bytes) = Response.return bytes := rfl
@[simp] theorem Response.of_error (e : Error) : Response.of (.error e) = Response.raise e := rfl
@[simp] theorem Response.return_status (bytes : List Byte) : (Response.return bytes).status = .ok := rfl
@[simp] theorem Response.return_errchar (bytes : List Byte) : (Response.return bytes).errchar = 0 := rfl
@[simp] theorem Response.return_res (bytes : List Byte) : (Response.return bytes).res = Buffer.ofBytes bytes := rfl
@[simp] theorem Response.raise_status (e : Error) : (Response.raise e).status = e.status := rfl
@[simp] theorem Response.raise_errchar (e : Error) : (Response.raise e).errchar = e.char := rfl
@[simp] theorem Response.raise_res (e : Error) : (Response.raise e).res = Buffer.empty := rfl

@[simp] theorem genBind_tNow (b : Bound) : (genBind b).tNow = b.now := rfl
@[simp] theorem genBind_tStart (b : Bound) : (genBind b).tStart = b.start := rfl
@[simp] theorem genBind_tStep (b : Bound) : (genBind b).tStep = b.step := rfl
@[simp] theorem genBind_tPin (b : Bound) : (genBind b).tPin = b.pin := rfl

end Sys2Proof.Machine
end

