-- ==== Sys2Proof/Laws/Memory.lean ====
section
/-! SUPPORT. The laws of a buffer: what a write leaves, that the canonical form is kept, and that a buffer made from a
sequence holds that sequence. -/

namespace Sys2Proof.Machine

theorem Memory.wfFrom_mono {m : Memory} {lo lo' : Nat} (hl : lo' ≤ lo) (h : m.wfFrom lo = true) :
    m.wfFrom lo' = true := by
  cases m with
  | nil => rfl
  | cons c rest =>
    obtain ⟨a, v⟩ := c
    simp only [Memory.wfFrom, Bool.and_eq_true, decide_eq_true_eq] at h ⊢
    exact ⟨⟨hl.trans h.1.1, h.1.2⟩, h.2⟩

/-- Nothing is listed below the bound of a canonical memory. -/
theorem Memory.read_below {m : Memory} {lo a : Nat} (h : m.wfFrom lo = true) (ha : a < lo) :
    m.read a = unlistedByte := by
  induction m generalizing lo with
  | nil => rfl
  | cons c rest ih =>
    obtain ⟨b, v⟩ := c
    simp only [Memory.wfFrom, Bool.and_eq_true, decide_eq_true_eq] at h
    rw [Memory.read, if_neg (by omega)]
    exact ih h.2 (by omega)

/-- A read after a write: the byte written at its index, the old byte everywhere else. -/
theorem Memory.read_write {m : Memory} {lo : Nat} (h : m.wfFrom lo = true) (a : Nat) (v : Byte) (b : Nat) :
    (m.write a v).read b = if a = b then v else m.read b := by
  induction m generalizing lo with
  | nil =>
    simp only [Memory.write]
    split <;> simp_all [Memory.read]
  | cons c rest ih =>
    obtain ⟨i, w⟩ := c
    have h' := h
    simp only [Memory.wfFrom, Bool.and_eq_true, decide_eq_true_eq] at h'
    have hlow : ∀ j, j < i + 1 → Memory.read rest j = unlistedByte := fun j hj => Memory.read_below h'.2 hj
    simp only [Memory.write]
    rcases lt_trichotomy a i with hai | rfl | hai
    · have := hlow a (by omega)
      by_cases hv : v = unlistedByte <;> by_cases hab : a = b <;> simp_all [Memory.read]
      omega
    · have := hlow a (by omega)
      by_cases hv : v = unlistedByte <;> by_cases hab : a = b <;> simp_all [Memory.read]
    · rw [if_neg (by omega), if_neg (by omega), Memory.read, ih h'.2, Memory.read]
      by_cases hib : i = b <;> by_cases hab : a = b <;> simp_all

/-- A write keeps the canonical form. -/
theorem Memory.wfFrom_write {m : Memory} {lo a : Nat} (h : m.wfFrom lo = true) (ha : lo ≤ a) (v : Byte) :
    (m.write a v).wfFrom lo = true := by
  induction m generalizing lo with
  | nil =>
    simp only [Memory.write]
    split <;> simp_all [Memory.wfFrom]
  | cons c rest ih =>
    obtain ⟨i, w⟩ := c
    have h' := h
    simp only [Memory.wfFrom, Bool.and_eq_true, decide_eq_true_eq] at h'
    simp only [Memory.write]
    rcases lt_trichotomy a i with hai | rfl | hai
    · by_cases hv : v = unlistedByte
      · simpa [hai, hv] using h
      · simp_all [Memory.wfFrom]
    · by_cases hv : v = unlistedByte
      · simpa [hv] using Memory.wfFrom_mono (by omega) h'.2
      · simp_all [Memory.wfFrom]
    · rw [if_neg (by omega), if_neg (by omega)]
      simp only [Memory.wfFrom, Bool.and_eq_true, decide_eq_true_eq]
      exact ⟨h'.1, ih h'.2 (by omega)⟩

/-- A canonical memory stays canonical under a write. -/
theorem Memory.wf_write {m : Memory} (h : m.wf = true) (a : Nat) (v : Byte) : (m.write a v).wf = true :=
  Memory.wfFrom_write h (Nat.zero_le a) v

/-- A canonical memory stays canonical under `MemWrite`. -/
theorem Memory.wf_memWrite {m : Memory} (h : m.wf = true) (i : Nat) (l : List Byte) : (m.memWrite i l).wf = true := by
  induction l generalizing m i with
  | nil => exact h
  | cons b bs ih => exact ih (Memory.wf_write h i b) (i + 1)

/-- A read after `MemWrite`: the byte of the sequence inside the written range, the old byte outside it. -/
theorem Memory.read_memWrite {m : Memory} (h : m.wf = true) (i : Nat) (l : List Byte) (j : Nat) :
    (m.memWrite i l).read j = if i ≤ j ∧ j < i + l.length then l.getD (j - i) 0 else m.read j := by
  induction l generalizing m i with
  | nil => simp [Memory.memWrite]
  | cons b bs ih =>
    rw [Memory.memWrite, ih (Memory.wf_write h i b), Memory.read_write h]
    by_cases h1 : i = j
    · subst h1; simp
    · by_cases h2 : i + 1 ≤ j ∧ j < i + 1 + bs.length
      · have h3 : j - i = j - (i + 1) + 1 := by omega
        rw [if_pos h2, if_pos ⟨by omega, by simp; omega⟩, h3, List.getD_cons_succ]
      · rw [if_neg h2, if_neg h1, if_neg (by simp; omega)]

theorem Memory.mem_write {m : Memory} {a : Nat} {v : Byte} {c : Host.Cell} (h : c ∈ m.write a v) :
    c ∈ m ∨ c.1 = a := by
  induction m with
  | nil =>
    simp only [Memory.write] at h
    split at h <;> simp_all
  | cons d rest ih =>
    obtain ⟨i, w⟩ := d
    simp only [Memory.write] at h
    split at h
    · split at h <;> simp_all
      rcases h with h | h | h <;> simp_all
    · split at h
      · split at h <;> simp_all
        rcases h with h | h <;> simp_all
      · simp only [List.mem_cons] at h ⊢
        rcases h with h | h
        · exact .inl (.inl h)
        · rcases ih h with h | h
          · exact .inl (.inr h)
          · exact .inr h

theorem Memory.mem_memWrite {m : Memory} {i : Nat} {l : List Byte} {c : Host.Cell} (h : c ∈ m.memWrite i l) :
    c ∈ m ∨ c.1 < i + l.length := by
  induction l generalizing m i with
  | nil => exact .inl h
  | cons b bs ih =>
    rcases ih h with h | h
    · rcases Memory.mem_write h with h | h
      · exact .inl h
      · exact .inr (by simp; omega)
    · exact .inr (by simp; omega)

@[simp] theorem Buffer.ofBytes_len (l : List Byte) : (Buffer.ofBytes l).len = l.length := rfl

/-- A buffer made from a sequence is canonical. -/
@[simp] theorem Buffer.wf_ofBytes (l : List Byte) : (Buffer.ofBytes l).wf = true := by
  simp only [Buffer.wf, Buffer.ofBytes, Bool.and_eq_true, List.all_eq_true]
  refine ⟨Memory.wf_memWrite rfl 0 l, fun c hc => decide_eq_true ?_⟩
  rcases Memory.mem_memWrite hc with h | h
  · simp at h
  · simpa using h

/-- Element `j` of a buffer made from a sequence. -/
theorem Buffer.read_ofBytes (l : List Byte) (j : Nat) : (Buffer.ofBytes l).cells.read j = l.getD j 0 := by
  rw [Buffer.ofBytes, Memory.read_memWrite rfl]
  by_cases h : j < l.length
  · simp [h]
  · simp only [Nat.zero_le, Nat.zero_add, true_and, if_neg h, Memory.read]
    rw [List.getD_eq_default _ _ (by omega)]
    rfl

@[simp] theorem Buffer.bytes_length (b : Buffer) : b.bytes.length = b.len := by
  simp [Buffer.bytes, Buffer.memRead]

/-- A buffer made from a sequence holds that sequence. -/
@[simp] theorem Buffer.bytes_ofBytes (l : List Byte) : (Buffer.ofBytes l).bytes = l := by
  refine List.ext_getElem (by simp) fun j h1 h2 => ?_
  simp [Buffer.bytes, Buffer.memRead, Buffer.read_ofBytes, h2]

@[simp] theorem Buffer.wf_empty : Buffer.empty.wf = true := rfl

@[simp] theorem Buffer.bytes_empty : Buffer.empty.bytes = [] := rfl

/-- The buffers of the state after reset are canonical. -/
theorem State.reset_buffers_wf :
    State.reset.req.src.wf = true ∧ State.reset.resp.res.wf = true ∧ State.reset.gen.chal.wf = true ∧
      State.reset.gen.key.wf = true ∧ State.reset.gen.dig.wf = true :=
  ⟨rfl, rfl, rfl, rfl, rfl⟩

/-- What a delivered response holds is canonical. -/
@[simp] theorem Response.of_res_wf (r : Result) : (Response.of r).res.wf = true := by
  cases r with
  | ok bytes => exact Buffer.wf_ofBytes bytes
  | error e => rfl

end Sys2Proof.Machine
end

