-- ==== Sys2Proof/Laws/Codec.lean ====
section
/-! SUPPORT. What the codec's functions do: lengths, the decoder's two outcomes, cleaning, and the range of the
streaming registers. -/

namespace Sys2Proof.Machine

/-! ## Streams and lengths -/

@[simp] theorem bitsOf_length {w : Nat} (v : BitVec w) : (bitsOf v).length = w := by simp [bitsOf]

@[simp] theorem byteStream_length (l : List Byte) : (byteStream l).length = 8 * l.length := by
  induction l with
  | nil => rfl
  | cons b bs ih => simp [byteStream] at ih ⊢; omega

@[simp] theorem symbolStream_length (l : List Byte) : (symbolStream l).length = 5 * l.length := by
  induction l with
  | nil => rfl
  | cons b bs ih => simp [symbolStream] at ih ⊢; omega

@[simp] theorem enc_length (l : List Byte) : (enc l).length = encLen l.length := by simp [enc]

@[simp] theorem decBits_length (t : List Byte) : (decBits t).length = 5 * t.length / 8 := by simp [decBits]

/-- The number of a stream that is two streams after one another. -/
theorem natOfBits_append (a b : List Bool) : natOfBits (a ++ b) = natOfBits a * 2 ^ b.length + natOfBits b := by
  have h : ∀ (l : List Bool) (n : Nat), l.foldl (fun a b => 2 * a + b.toNat) n = n * 2 ^ l.length + natOfBits l := by
    intro l
    induction l with
    | nil => intro n; simp [natOfBits]
    | cons x xs ih =>
      intro n
      rw [natOfBits, List.foldl_cons, List.foldl_cons, ih, ih (2 * 0 + x.toNat), List.length_cons, pow_succ]
      ring
  rw [natOfBits, List.foldl_append]
  exact h b _

/-- A stream of `n` bits is a number below `2^n`. -/
theorem natOfBits_lt (l : List Bool) : natOfBits l < 2 ^ l.length := by
  induction l using List.reverseRecOn with
  | nil => simp [natOfBits]
  | append_singleton xs x ih =>
    rw [natOfBits_append]
    cases x <;> simp [natOfBits, pow_succ] at ih ⊢ <;> omega

/-! ## Cleaning -/

@[simp] theorem inTrimSet_space (P : Params) : inTrimSet P 0x20 = true := rfl

/-- What `TRIM_SET` holds: space, and what the platform's set holds beside the classes R79 and R53 keep out. -/
theorem inTrimSet_iff (P : Params) (c : Byte) :
    inTrimSet P c = true ↔ c = 0x20 ∨
      (isSymbol c = false ∧ isLower c = false ∧ isSep c = false ∧ isPad c = false ∧ isClassless c = false ∧
        P.trimSet c = true) := by
  simp [inTrimSet, and_assoc]

theorem trim_length_le (P : Params) (t : List Byte) : (trim P t).length ≤ t.length := by
  simp only [trim, List.length_reverse]
  exact (List.length_dropWhile_le _ _).trans
    (by simpa using List.length_dropWhile_le (inTrimSet P) t)

/-- Cleaning never lengthens a text. -/
theorem clean_length_le (P : Params) (t : List Byte) : (clean P t).length ≤ t.length := by
  have h1 := trim_length_le P t
  have h2 : (removeSep (trim P t)).length ≤ (trim P t).length := List.length_filter_le _ _
  have h3 : (stripPad (removeSep (trim P t))).length ≤ (removeSep (trim P t)).length := by
    simp only [stripPad, List.length_reverse]
    simpa using List.length_dropWhile_le isPad (removeSep (trim P t)).reverse
  simp only [clean, upper, List.length_map]
  omega

/-- The two outcomes of a decode (R85). -/
theorem dec_eq_error_iff (P : Params) (t : List Byte) (c : Byte) :
    dec P t = .error c ↔ (clean P t).find? (fun x => !isSymbol x) = some c := by
  simp only [dec]
  cases (clean P t).find? (fun x => !isSymbol x) <;> simp

theorem dec_eq_ok_iff (P : Params) (t out : List Byte) :
    dec P t = .ok out ↔ (∀ x ∈ clean P t, isSymbol x = true) ∧ out = decBits (clean P t) := by
  simp only [dec]
  split
  · rename_i c h
    have hc := List.find?_some h
    have hm := List.mem_of_find?_eq_some h
    simp only [reduceCtorEq, false_iff, not_and]
    intro hall
    simp_all
  · rename_i h
    simp only [List.find?_eq_none] at h
    simp only [Except.ok.injEq]
    constructor
    · rintro rfl
      exact ⟨fun x hx => by simpa using h x hx, rfl⟩
    · exact fun hx => hx.2.symm

/-! ## The streaming registers stay in range (R22) -/

theorem low_bits_lt (acc : BitVec 12) (n : Nat) (hn : n ≤ 7) :
    (acc &&& BitVec.ofNat 12 (2 ^ n - 1)).toNat < 2 ^ n := by
  rw [BitVec.toNat_and, BitVec.toNat_ofNat]
  have h : (2 ^ n - 1) % 2 ^ 12 = 2 ^ n - 1 := by
    apply Nat.mod_eq_of_lt
    have : 2 ^ n ≤ 2 ^ 7 := Nat.pow_le_pow_right (by omega) hn
    omega
  rw [h, Nat.and_two_pow_sub_one_eq_mod]
  exact Nat.mod_lt _ (by positivity)

/-- A turn of the encoder's `while` leaves `ACC` within the bits that are held. -/
theorem encEmit_fst (r : CodecRegs) (out : List Byte) (h : 5 ≤ r.cnt.toNat) (h' : r.cnt.toNat ≤ 12) :
    (encEmit r out).1.cnt.toNat = r.cnt.toNat - 5 ∧ (encEmit r out).1.inRange ∧ (encEmit r out).1.idx = r.idx := by
  have hc : (r.cnt - 5).toNat = r.cnt.toNat - 5 := by
    rw [BitVec.toNat_sub_of_le (by simpa [BitVec.le_def] using h)]; rfl
  refine ⟨hc, ⟨?_, ?_⟩, rfl⟩
  · simp only [encEmit, hc]; omega
  · simp only [encEmit, hc]; exact low_bits_lt _ _ (by omega)

/-- A decode's registers stay in range whether a byte is put out or not. -/
theorem decTake_inRange (r : CodecRegs) (out : List Byte) (v : BitVec 5) (h : r.inRange) :
    (decTake r out v).1.inRange := by
  obtain ⟨hc, ha⟩ := h
  have hadd : (r.cnt + 5).toNat = r.cnt.toNat + 5 := by
    rw [BitVec.toNat_add]; exact Nat.mod_eq_of_lt (by simp; omega)
  unfold decTake
  by_cases h8 : 8 ≤ (r.cnt + 5).toNat
  · have hsub : (r.cnt + 5 - 8).toNat = r.cnt.toNat + 5 - 8 := by
      rw [BitVec.toNat_sub_of_le (by simpa [BitVec.le_def] using h8), hadd]; rfl
    simp only [if_pos h8, CodecRegs.inRange, hsub]
    exact ⟨by omega, low_bits_lt _ _ (by omega)⟩
  · simp only [if_neg h8, CodecRegs.inRange]
    rw [hadd]
    refine ⟨by omega, ?_⟩
    rw [BitVec.toNat_or, BitVec.toNat_shiftLeft, BitVec.toNat_setWidth]
    have hv : v.toNat < 2 ^ 5 := v.isLt
    have hpow : 2 ^ (r.cnt.toNat + 5) = 2 ^ r.cnt.toNat * 2 ^ 5 := pow_add _ _ _
    apply Nat.or_lt_two_pow
    · refine lt_of_le_of_lt (Nat.mod_le _ _) ?_
      rw [Nat.shiftLeft_eq, hpow]
      exact Nat.mul_lt_mul_of_pos_right ha (by norm_num)
    · refine lt_of_le_of_lt (Nat.mod_le _ _) (lt_of_lt_of_le hv ?_)
      exact Nat.pow_le_pow_right (by norm_num) (by omega)

/-- The streaming decoder ends with its registers in range, on every text. -/
theorem decStream_inRange (r : CodecRegs) (out t : List Byte) (h : r.inRange) : (decStream r out t).1.inRange := by
  induction t generalizing r out with
  | nil => exact h
  | cons c cs ih =>
    simp only [decStream]
    split
    · exact h
    · exact ih _ _ (decTake_inRange r out _ h)

/-- One byte of the encoder: the registers come back with at most 4 bits held (R22). -/
theorem encDrain_take (r : CodecRegs) (out : List Byte) (b : Byte) (hc : r.cnt.toNat ≤ 4) :
    (encDrain 2 (encTake r b) out).1.cnt.toNat ≤ 4 ∧ (encDrain 2 (encTake r b) out).1.inRange ∧
      (encDrain 2 (encTake r b) out).1.idx = r.idx + 1 := by
  have hadd : (encTake r b).cnt.toNat = r.cnt.toNat + 8 := by
    simp only [encTake, BitVec.toNat_add]; exact Nat.mod_eq_of_lt (by simp; omega)
  obtain ⟨h1, hr1, hi1⟩ := encEmit_fst (encTake r b) out (by omega) (by omega)
  rw [encDrain, if_pos (by omega)]
  by_cases h5 : 5 ≤ (encEmit (encTake r b) out).1.cnt.toNat
  · obtain ⟨h2, hr2, hi2⟩ := encEmit_fst (encEmit (encTake r b) out).1 (encEmit (encTake r b) out).2 h5 (by omega)
    rw [encDrain, if_pos h5, encDrain]
    exact ⟨by simp only; omega, hr2, by rw [hi2, hi1]; rfl⟩
  · rw [encDrain, if_neg h5]
    exact ⟨by simp only; omega, hr1, by rw [hi1]; rfl⟩

/-- The streaming encoder ends with its registers in range and every input byte taken in. -/
theorem encLoop_inRange (r : CodecRegs) (out bytes : List Byte) (hc : r.cnt.toNat ≤ 4) (hr : r.inRange) :
    (encLoop r out bytes).1.cnt.toNat ≤ 4 ∧ (encLoop r out bytes).1.inRange ∧
      (encLoop r out bytes).1.idx = r.idx + bytes.length := by
  induction bytes generalizing r out with
  | nil => exact ⟨hc, hr, rfl⟩
  | cons b bs ih =>
    obtain ⟨h1, h2, h3⟩ := encDrain_take r out b hc
    obtain ⟨g1, g2, g3⟩ := ih _ (encDrain 2 (encTake r b) out).2 h1 h2
    exact ⟨g1, g2, by rw [encLoop, g3, h3, List.length_cons]; omega⟩

end Sys2Proof.Machine
end

