-- ==== Sys2Proof/Laws/Generator.lean ====
section
/-! SUPPORT. What the generator's functions do, one lemma each, and the form of every meaning. -/

namespace Sys2Proof.Machine

@[simp] theorem challenge_length (ctr : Time) : (challenge ctr).length = 8 := by simp [challenge]

@[simp] theorem formatPin_length (v n : Nat) : (formatPin v n).length = n := by simp [formatPin]

/-- The digest of the configured primitive has 20 bytes (R108). -/
@[simp] theorem Config.params_hmac_length (key msg : List Byte) : (Config.params.hmac key msg).length = 20 := by
  simp [Config.params]

/-- The checks of steps 0, 1 and 2a pass exactly under these conditions (R98, R99, R100). -/
theorem genCheck_eq_none_iff (algok : Bool) (b : Bound) :
    genCheck algok b = none ↔ algok = true ∧ 1 ≤ b.pin.toInt ∧ b.pin.toInt ≤ 9 ∧ 0 < b.step.toInt := by
  unfold genCheck
  split
  · simp_all
  · split
    · simp_all; omega
    · split <;> simp_all

theorem fitsTime_iff (d : Int) : fitsTime d = true ↔ -2 ^ 63 ≤ d ∧ d < 2 ^ 63 := by simp [fitsTime]

/-- The difference that is admitted (R101). -/
theorem admitDiff_of_fits (policy : OverflowPolicy) {d : Int} (h : fitsTime d = true) : admitDiff policy d = some d := by
  simp [admitDiff, h]

/-- A digest of 19 bytes or more always reaches (R110). -/
theorem windowFits_of_length {dig : List Byte} (h : 19 ≤ dig.length) : windowFits dig = true := by
  have h1 : dig ≠ [] := by rintro rfl; simp at h
  have h2 : (truncOffset dig).toNat < 16 := (truncOffset dig).isLt
  simp only [windowFits, Bool.and_eq_true, Bool.not_eq_true', List.isEmpty_eq_false_iff, decide_eq_true_eq]
  exact ⟨h1, by omega⟩

/-- How the last steps end: with a PIN if the window fits, with `DigestTooShort` otherwise (R110, R113). -/
theorem genPin_result (g : GenRegs) (codec : CodecRegs) (n : Nat) (dig : List Byte) :
    (genPin g codec n dig).result =
      if windowFits dig then .ok (formatPin (pinValue (truncatedHash dig) n) n) else .error .digestTooShort := by
  unfold genPin
  split <;> simp_all

@[simp] theorem genPin_codec (g : GenRegs) (codec : CodecRegs) (n : Nat) (dig : List Byte) :
    (genPin g codec n dig).codec = codec := by
  unfold genPin
  split <;> rfl

/-! ## The form of every meaning: one completed run -/

theorem exec_b32enc (s : State) : exec .b32enc s = .next (s.complete (encodeRun s.req.src)) := rfl

theorem exec_b32dec (s : State) : exec .b32dec s = .next (s.complete (decodeRun Config.params s.req.src)) := rfl

theorem exec_totpgen (dp dt ds : Bool) (s : State) :
    exec (.totpgen dp dt ds) s = .next (s.complete
      (generateRun Config.params s.algok (bindParams s.req.now dp dt ds s.req) s.req.src.bytes)) := rfl

theorem exec_totpgenw (dp dt ds : Bool) (s : State) :
    exec (.totpgenw dp dt ds) s = .next (s.complete
      (generateRun Config.params s.algok (bindParams s.req.wallclk dp dt ds s.req) s.req.src.bytes)) := rfl

/-- Every instruction completes a run, in every state. -/
theorem exec_completes (i : Instr) (s : State) : ∃ run, exec i s = .next (s.complete run) := by
  cases i with
  | b32enc => exact ⟨_, exec_b32enc s⟩
  | b32dec => exact ⟨_, exec_b32dec s⟩
  | totpgen dp dt ds => exact ⟨_, exec_totpgen dp dt ds s⟩
  | totpgenw dp dt ds => exact ⟨_, exec_totpgenw dp dt ds s⟩

end Sys2Proof.Machine
end

