-- ==== Sys2Proof/Laws/PerInstr.lean ====
section
/-! SUPPORT. The per-instruction family `TableRow`: the encoding of an instruction matches its row of
spec/opcode_table.json. -/

namespace Sys2Proof.Laws

/-- `mask` and `match` of the instruction's row. -/
def TableRow.maskMatch : Instr → Byte × Byte
  | .b32enc => (0xFF, 0x00)
  | .b32dec => (0xFF, 0x01)
  | .totpgen _ _ _ => (0xC7, 0x02)
  | .totpgenw _ _ _ => (0xC7, 0x06)

/-- The instruction's word carries its row's fixed bits and is a legal command word. -/
def TableRow.Statement (i : Instr) : Prop :=
  encode i &&& (TableRow.maskMatch i).1 = (TableRow.maskMatch i).2 ∧ CommandWord.wf (encode i) = true

theorem TableRow.b32enc : TableRow.Statement .b32enc := by unfold TableRow.Statement; decide

theorem TableRow.b32dec : TableRow.Statement .b32dec := by unfold TableRow.Statement; decide

theorem TableRow.totpgen (dp dt ds : Bool) : TableRow.Statement (.totpgen dp dt ds) := by
  unfold TableRow.Statement; revert dp dt ds; decide

theorem TableRow.totpgenw (dp dt ds : Bool) : TableRow.Statement (.totpgenw dp dt ds) := by
  unfold TableRow.Statement; revert dp dt ds; decide

end Sys2Proof.Laws
end

