-- ==== Sys2Proof/Laws/Step.lean ====
section
/-! SUPPORT. What a step can do, said once, and runs of several steps. -/

namespace Sys2Proof.Machine

@[simp] theorem Config.params_bufCap : Config.params.bufCap = none := rfl
@[simp] theorem Config.params_hmPresent : Config.params.hmPresent = Config.hmPresent := rfl

/-- Every length is admitted while `BUF_CAP` is unbounded. -/
@[simp] theorem admitted_none (n : Nat) : admitted none n = true := rfl

@[simp] theorem admitted_some (cap n : Nat) : admitted (some cap) n = true ↔ n ≤ cap := by simp [admitted]

/-- An unbounded platform delivers every answer. -/
@[simp] theorem deliver_none_next (t : State) : deliver none (.next t) = .next t.release := rfl

/-- What is delivered is the answer with its registers released, and it fits. -/
theorem deliver_eq_next {cap : Option Nat} {o : Host.Outcome State Fault Refusal} {t : State} :
    deliver cap o = .next t ↔ ∃ u, o = .next u ∧ admitted cap u.resp.res.len = true ∧ t = u.release := by
  cases o with
  | next u =>
    simp only [deliver, Host.Outcome.next.injEq, exists_eq_left']
    split
    · exact ⟨fun h => ⟨‹_›, (Host.Outcome.next.inj h).symm⟩, fun h => h.2 ▸ rfl⟩
    · exact ⟨nofun, fun h => absurd h.1 ‹_›⟩
  | fault f => simp [deliver]
  | refused e => simp [deliver]

/-- Every instruction completes a run over any parameters, in every state. -/
theorem execWith_completes (P : Params) (i : Instr) (s : State) :
    ∃ run, execWith P i s = .next (s.complete run) := by
  cases i <;> exact ⟨_, rfl⟩

/-- `exec` is the operations over the instance of the parameters. -/
theorem exec_eq_execWith : exec = execWith Config.params := by
  funext i s
  cases i <;> rfl

/-- `step` is the step over the instance of the parameters. -/
theorem step_eq_stepWith (s : State) : step s = stepWith Config.params s := by
  rw [step, stepWith, exec_eq_execWith]

/-- What a step can do when it answers: stay idle, restart, abandon a request, or deliver the answer to one. -/
theorem stepOf_next_cases {P : Params} {run : Instr → State → Host.Outcome State Fault Refusal} {s t : State}
    (h : stepOf P run s = .next t) :
    (s.pending = [] ∧ t = s) ∨
    (∃ rest, s.pending = .reset :: rest ∧ t = s.restart P.hmPresent rest) ∨
    (∃ r rest, s.pending = .resetDuring r :: rest ∧ admitted P.bufCap r.src.len = true ∧
      t = s.abandon r P.hmPresent rest) ∨
    (∃ r rest, s.pending = .request r :: rest ∧ admitted P.bufCap r.src.len = true ∧
      ((∃ i u, decode r.cmd = .ok i ∧ run i (s.accept r rest) = .next u ∧ admitted P.bufCap u.resp.res.len = true ∧
          t = u.release) ∨
        ∃ e, decode r.cmd = .error e ∧ t = { s.accept r rest with resp := Response.raise .illegalCommand })) := by
  unfold stepOf at h
  split at h
  · rename_i hp
    exact .inl ⟨hp, (Host.Outcome.next.inj h).symm⟩
  · rename_i rest hp
    exact .inr (.inl ⟨rest, hp, (Host.Outcome.next.inj h).symm⟩)
  · rename_i r rest hp
    split at h
    · exact .inr (.inr (.inl ⟨r, rest, hp, ‹_›, (Host.Outcome.next.inj h).symm⟩))
    · cases h
  · rename_i r rest hp
    split at h
    · refine .inr (.inr (.inr ⟨r, rest, hp, ‹_›, ?_⟩))
      split at h
      · obtain ⟨u, hu, hres, ht⟩ := deliver_eq_next.1 h
        exact .inl ⟨_, u, ‹_›, hu, hres, ht⟩
      · exact .inr ⟨_, ‹_›, (Host.Outcome.next.inj h).symm⟩
    · cases h

/-- What a step can do: stay idle, restart, abandon a request, complete a run of the request presented and release
the registers, or answer an illegal command. -/
theorem step_next_cases {s t : State} (h : step s = .next t) :
    (s.pending = [] ∧ t = s) ∨
    (∃ rest, s.pending = .reset :: rest ∧ t = s.restart Config.hmPresent rest) ∨
    (∃ r rest, s.pending = .resetDuring r :: rest ∧ t = s.abandon r Config.hmPresent rest) ∨
    (∃ r rest i run, s.pending = .request r :: rest ∧ decode r.cmd = .ok i ∧
      exec i (s.accept r rest) = .next ((s.accept r rest).complete run) ∧
      t = ((s.accept r rest).complete run).release) ∨
    (∃ r rest e, s.pending = .request r :: rest ∧ decode r.cmd = .error e ∧
      t = { s.accept r rest with resp := Response.raise .illegalCommand }) := by
  obtain h | h | ⟨r, rest, hp, -, ht⟩ | ⟨r, rest, hp, -, ⟨i, u, hd, hi, -, ht⟩ | ⟨e, hd, ht⟩⟩ := stepOf_next_cases h
  · exact .inl h
  · exact .inr (.inl h)
  · exact .inr (.inr (.inl ⟨r, rest, hp, ht⟩))
  · obtain ⟨run, hr⟩ := exec_completes i (s.accept r rest)
    exact .inr (.inr (.inr (.inl ⟨r, rest, i, run, hp, hd, hr, ht.trans (Host.Outcome.next.inj (hi.symm.trans hr) ▸ rfl)⟩)))
  · exact .inr (.inr (.inr (.inr ⟨r, rest, e, hp, hd, ht⟩)))

theorem core_run_zero (s : State) : Sys2Proof.core.run 0 s = .next s := rfl

/-- A run goes on from the state its first step answers. -/
theorem core_run_succ {s t : State} (k : Nat) (h : step s = .next t) :
    Sys2Proof.core.run (k + 1) s = Sys2Proof.core.run k t := by
  have h' : Sys2Proof.core.step s = .next t := h
  simp only [Host.Core.run, h']

end Sys2Proof.Machine
end

