-- ==== Sys2Proof/Tests/Slice0.lean ====
section
/-! SUPPORT. The model's own tests: ill-formed command words, decoding of words written out from R46, the spec's test
vectors on one step each, and for every statement that has hypotheses a state and operands that meet them. -/

namespace Sys2Proof.Tests

open Sys2Proof.Machine

/-! ## Small states -/

/-- A request with a command word and a source text; `NOW` = `WALLCLK` = 59, `START` = 0, `STEP` = 30, `PINLEN` = 6. -/
def request (cmd : Byte) (src : List Byte) : Request := ⟨cmd, Buffer.ofBytes src, 59, 0, 30, 6, 59⟩

/-- The core with the primitive present and a request on its ports. -/
def machine (r : Request) : State := { State.reset with algok := true, req := r }

/-- The core with the primitive present and the host about to present a request. -/
def waiting (r : Request) : State := { State.reset with algok := true, pending := [.request r] }

/-- Any outcome of a step, read for one fact. -/
def next? (o : Host.Outcome State Fault Refusal) (p : State → Bool) : Bool :=
  match o with
  | .next t => p t
  | _ => false

/-- `"MZXW6"`. -/
def mzxw6 : List Byte := [0x4D, 0x5A, 0x58, 0x57, 0x36]

/-- `"MZ0W6"`: the offender stands inside, where no `TRIM_SET` removes it. -/
def mz0w6 : List Byte := [0x4D, 0x5A, 0x30, 0x57, 0x36]

/-- The stub primitive of vector V13 row 1, with the default `TRIM_SET`. -/
def stub : Params where
  hmac _ _ := (List.range 20).map (fun i => BitVec.ofNat 8 i)
  trimSet := Config.defTrimSet
  hmPresent := true
  bufCap := none
  overflow := .fault

/-! ## Ill-formed command words (R50, V18) -/

theorem test_reserved_bits_refused : CommandWord.reservedZero 0x42 = false ∧ CommandWord.wf 0x42 = false ∧
    decode 0x42 = .error .reservedBits := by decide

theorem test_reserved_operation_refused : CommandWord.opDefined 0x3F = false ∧ CommandWord.wf 0x3F = false ∧
    decode 0x3F = .error .reservedOperation := by decide

theorem test_codec_flags_refused : CommandWord.flagsAllowed 0x20 = false ∧ CommandWord.wf 0x20 = false ∧
    decode 0x20 = .error .codecFlags ∧ decode 0x05 = .error .codecFlags := by decide

theorem test_decode_accepts_the_legal_words : ∀ w : Byte, (decode w).toBool = CommandWord.wf w := by decide

/-! ## Decoding: words written out from R46 and R61 -/

theorem test_decode_codec : decode 0b00000000 = .ok .b32enc ∧ decode 0b00000001 = .ok .b32dec := by decide

theorem test_decode_totpgen : decode 0b00000010 = .ok (.totpgen false false false) ∧
    decode 0b00111010 = .ok (.totpgen true true true) ∧ decode 0b00011010 = .ok (.totpgen false true true) := by decide

theorem test_decode_totpgenw : decode 0b00000110 = .ok (.totpgenw false false false) ∧
    decode 0b00111110 = .ok (.totpgenw true true true) ∧ decode 0b00011110 = .ok (.totpgenw false true true) := by
  decide

theorem test_table_words_run_after_reset : ∀ w ∈ ([0x00, 0x01, 0x02, 0x06] : List Nat),
    (decodeTableWord 8 w).isSome = true ∧ next? (step (State.reset.withFetchWord 8 w)) (fun _ => true) = true := by
  decide

/-! ## Vectors of spec/95_test_vectors.md, one step each -/

/-- V1: `encode("foobar")`. -/
theorem test_b32enc_foobar :
    next? (step (waiting (request 0x00 [0x66, 0x6F, 0x6F, 0x62, 0x61, 0x72]))) (fun t => t.resp.status == .ok &&
      t.resp.res.bytes == [0x4D, 0x5A, 0x58, 0x57, 0x36, 0x59, 0x54, 0x42, 0x4F, 0x49]) = true := by decide

/-- P2 row 7: an input of 2^28 bytes. -/
theorem test_b32enc_too_long :
    next? (step (waiting { request 0x00 [] with src := ⟨[], 2 ^ 28⟩ }))
      (fun t => t.resp.status == .inputTooLong && t.resp.res.len == 0) = true := by decide

/-- P1 row 3: `"mzxw-6ytb oi=="`. -/
theorem test_b32dec_tolerant :
    next? (step (waiting (request 0x01
      [0x6D, 0x7A, 0x78, 0x77, 0x2D, 0x36, 0x79, 0x74, 0x62, 0x20, 0x6F, 0x69, 0x3D, 0x3D])))
      (fun t => t.resp.status == .ok && t.resp.res.bytes == [0x66, 0x6F, 0x6F, 0x62, 0x61, 0x72]) = true := by decide

/-- V20: `"AA\t-"` fails on the tab, `"AA-\t"` decodes. -/
theorem test_b32dec_order_of_cleaning :
    dec stub [0x41, 0x41, 0x09, 0x2D] = .error 0x09 ∧ dec stub [0x41, 0x41, 0x2D, 0x09] = .ok [0x00] := by decide

/-- V6 and R129: `pin=10` with an undecodable secret. -/
theorem test_totpgen_pin_length_first :
    next? (step (waiting { request 0x02 mz0w6 with pinlen := 10 }))
      (fun t => t.resp.status == .invalidPinLength && t.resp.res.len == 0) = true := by decide

/-- P5 row 4: `now=1000, start=2000, step=7, pin=4` over the stub: Counter -143, PIN `"5078"`. -/
theorem test_totpgen_negative_counter :
    (generateRun stub true ⟨1000, 2000, 7, 4⟩ mzxw6).gen.chal.bytes =
      [0xFF, 0xFF, 0xFF, 0xFF, 0xFF, 0xFF, 0xFF, 0x71] ∧
    (generateRun stub true ⟨1000, 2000, 7, 4⟩ mzxw6).result = .ok [0x35, 0x30, 0x37, 0x38] := by decide

/-- V17 last row: `WALLCLK` = 2^63 - 1 with `START` = -1 overflows although `NOW` = 59. -/
theorem test_totpgenw_overflow :
    next? (stepWith stub (waiting { request 0x06 mzxw6 with wallclk := 0x7FFFFFFFFFFFFFFF, start := -1 }))
      (fun t => t.resp.status == .counterOverflow) = true := by decide

/-- V17, `CMD` = 0x3E: bad ports hidden by the default flags, `WALLCLK` = 59, over the stub: `"595078"`. -/
theorem test_totpgenw_defaults :
    (generateRun stub true (bindParams 59 true true true { request 0x3E mzxw6 with pinlen := 12, step := 0 })
      mzxw6).result = .ok [0x35, 0x39, 0x35, 0x30, 0x37, 0x38] := by decide

/-! ## Witnesses: hypotheses that can be met -/

theorem witness_IllegalCommandWords :
    (waiting (request 0x03 [])).pending = [.request (request 0x03 [])] ∧
      decode (request 0x03 []).cmd = .error .reservedOperation := by decide

theorem witness_DecodeEncodeAgree : decode 0x3E = .ok (.totpgenw true true true) := by decide

theorem witness_StepRunsDecodedInstruction :
    (waiting (request 0x00 [])).pending = [.request (request 0x00 [])] ∧ decode (request 0x00 []).cmd = .ok .b32enc := by
  decide

theorem witness_IdleStepChangesNothing : State.reset.pending = [] ∧ (waiting (request 0x3A mzxw6)).Idle ∧
    (waiting (request 0x00 [])).Idle ∧ (waiting (request 0x3A mzxw6)).algok = (waiting (request 0x00 [])).algok ∧
    (waiting (request 0x3A mzxw6)).pending = [.request (request 0x3A mzxw6)] ∧
    decode (request 0x3A mzxw6).cmd = .ok (.totpgen true true true) ∧
    ∃ t, step (waiting (request 0x3A mzxw6)) = .next t := ⟨rfl, ⟨rfl, rfl⟩, ⟨rfl, rfl⟩, rfl, rfl, rfl, _, rfl⟩

/-- A platform of 5 bytes: an operand of 6 bytes, a result of 5 that fits, a result of 8 that does not, an illegal word. -/
theorem witness_EveryStepAnswers :
    let P := { stub with bufCap := some 5 }
    let s := waiting (request 0x00 [0x66, 0x6F, 0x6F])
    (waiting (request 0x00 (mzxw6 ++ mzxw6))).pending = [.request (request 0x00 (mzxw6 ++ mzxw6))] ∧
    stepWith P (waiting (request 0x00 (mzxw6 ++ mzxw6))) = .refused .operandTooLong ∧
    next? (stepWith P s) (fun t => t.resp.res.len == 5) = true ∧
    stepWith P (waiting (request 0x00 mzxw6)) = .refused .resultTooLong ∧
    decode (request 0x42 mzxw6).cmd = .error .reservedBits :=
  ⟨rfl, rfl, by decide, rfl, rfl⟩

theorem witness_ResetDuringOperation :
    ({ State.reset with pending := [.resetDuring (request 0x00 mzxw6)] } : State).pending =
      [.resetDuring (request 0x00 mzxw6)] := rfl

theorem witness_AlgokLatchedAtReset :
    ({ State.reset with pending := [.reset] } : State).pending = [.reset] ∧
    (∃ r, ({ State.reset with pending := [.resetDuring (request 0x00 [])] } : State).pending = .resetDuring r :: []) ∧
    (∀ rest, (waiting (request 0x00 [])).pending ≠ .reset :: rest) ∧
    (∀ r rest, (waiting (request 0x00 [])).pending ≠ .resetDuring r :: rest) ∧
    ∃ t, step (waiting (request 0x00 [])) = .next t :=
  ⟨rfl, ⟨_, rfl⟩, fun rest h => by simp [waiting] at h, fun r rest h => by simp [waiting] at h, _, rfl⟩

theorem witness_ResetThenAnswersAlike :
    ({ State.reset with pending := [.reset] } : State).pending = [.reset] ∧
    State.reset.algok = Config.hmPresent ∧ ∃ t, step State.reset = .next t := ⟨rfl, rfl, _, rfl⟩

theorem witness_HistoryNeverMatters :
    (waiting (request 0x00 [])).algok = ({ waiting (request 0x00 []) with resp := ⟨.illegalCommand, 0, Buffer.empty⟩ } :
      State).algok ∧ (waiting (request 0x00 [])).pending ≠ [] := ⟨rfl, by simp [waiting]⟩

theorem witness_ResponseReadsListedPortsOnly :
    let s := machine (request 0x3A mzxw6)
    let s' := machine { request 0x3A mzxw6 with start := 7, step := 0, pinlen := 12, wallclk := 0 }
    s.req.src = s'.req.src ∧ s.req.now = s'.req.now ∧ s.algok = s'.algok ∧
      s.req.start ≠ s'.req.start ∧ s.req.step ≠ s'.req.step ∧ s.req.pinlen ≠ s'.req.pinlen ∧
    (waiting (request 0xFF [])).pending = [.request (request 0xFF [])] ∧
      decode (request 0xFF []).cmd = .error .reservedBits := by decide

theorem witness_ResponseReadsListedPortsOnly_wallclock :
    let s := machine (request 0x3E mzxw6)
    let s' := machine { request 0x3E mzxw6 with start := 7, step := 0, pinlen := 12, now := 0 }
    s.req.src = s'.req.src ∧ s.req.wallclk = s'.req.wallclk ∧ s.algok = s'.algok ∧ s.req.now ≠ s'.req.now := by decide

theorem witness_RepeatedRequestSameResponse :
    ∃ t, exec (.totpgenw true true true) (machine (request 0x3E mzxw6)) = .next t := ⟨_, rfl⟩

theorem witness_StepKeepsInvariant :
    let s : State := { State.reset with pending := [.request (request 0x01 mzxw6)] }
    s.Inv ∧ s.OperandsCanonical ∧ ∃ t, step s = .next t := by
  refine ⟨⟨⟨rfl, rfl⟩, ⟨rfl, fun _ => rfl, fun _ => rfl⟩, rfl⟩,
    ⟨rfl, fun r hr => ?_⟩, _, rfl⟩
  simp only [List.mem_singleton, HostMove.request.injEq, reduceCtorEq, or_false] at hr
  subst hr
  exact Buffer.wf_ofBytes mzxw6

theorem witness_CodecFrame :
    (∃ t, exec .b32enc (machine (request 0x00 mzxw6)) = .next t) ∧
      ∃ t, exec .b32dec (machine (request 0x01 mzxw6)) = .next t := ⟨⟨_, rfl⟩, _, rfl⟩

theorem witness_GeneratorFrame :
    (∃ t, exec (.totpgen true true true) (machine (request 0x3A mzxw6)) = .next t) ∧
      ∃ t, exec (.totpgenw true true true) (machine (request 0x3E mzxw6)) = .next t := ⟨⟨_, rfl⟩, _, rfl⟩

/-- V11 row `"MZXW6\x80"`, and 0xFF at the front: a code of no class is invalid whatever `TRIM_SET` holds. -/
theorem witness_CharacterClasses : 0x80 ≤ (0xFF : Byte).toNat ∧ isLower 0x61 = true ∧ isLower 0x41 = false ∧
    dec Config.params (mzxw6 ++ [0x80]) = .error 0x80 ∧ dec Config.params (0xFF :: mzxw6) = .error 0xFF := by decide

theorem witness_EncodeResult : (machine (request 0x00 mzxw6)).req.src.len < 2 ^ 28 := by decide

/-- Both sides of the guard at its boundary. -/
theorem witness_EncodeLengthGuard :
    2 ^ 28 ≤ (machine { request 0x00 [] with src := ⟨[], 2 ^ 28⟩ }).req.src.len ∧
      (machine { request 0x00 [] with src := ⟨[], 2 ^ 28 - 1⟩ }).req.src.len < 2 ^ 28 := by decide

theorem witness_EncodeEmpty : (machine (request 0x00 [])).req.src.len = 0 := by decide

theorem witness_EncodeLengths :
    mzxw6.length = 5 * 1 + 0 ∧ ([1, 2, 3, 4] : List Byte).length = 5 * 0 + 4 := by decide

theorem witness_EncodeAlphabetOnly : ∃ t, exec .b32enc (machine (request 0x00 mzxw6)) = .next t ∧
    (0x4A : Byte) ∈ t.resp.res.bytes := ⟨_, rfl, by decide⟩

theorem witness_EncodeStreamingAgrees : 5 ≤ mzxw6.length := by decide

theorem witness_EncodeInjective : enc [0xFF] = enc [0xFF] ∧ enc [0xFF] ≠ enc [0xFE] := by decide

theorem witness_EncodeSplits : (enc [0xFF]).getLast? = some 0x34 ∧ mzxw6.length % 5 = 0 := by decide

/-- Runs at both ends, and a set of R79 beyond the default: with DEL in it the last row of V11 decodes, and with the
default it does not. -/
theorem witness_TrimRemovesLongestRuns :
    let S : Byte → Bool := fun c => c == 0x20 || c == 0x7F
    S 0x20 = true ∧ (∀ c, S c = true → isSymbol c = false ∧ isLower c = false ∧ c ≠ 0x2D ∧ c ≠ 0x3D ∧
      c.toNat < 0x80) ∧
    dec { stub with trimSet := S } (mzxw6 ++ [0x7F]) = .ok [0x66, 0x6F, 0x6F] ∧ dec stub (mzxw6 ++ [0x7F]) = .error 0x7F ∧
    (trim stub [0x09, 0x41, 0x20]).head? = some 0x41 ∧
    (trim stub [0x09, 0x41, 0x20]).getLast? = some 0x41 ∧ inTrimSet stub 0x20 = true := by decide

theorem witness_DecodeResult : ∀ c ∈ clean Config.params (machine (request 0x01 mzxw6)).req.src.bytes,
    isSymbol c = true := by decide

theorem witness_DecodeFirstInvalid :
    clean Config.params (machine (request 0x01 mz0w6)).req.src.bytes = [0x4D, 0x5A] ++ 0x30 :: [0x57, 0x36] ∧
      (∀ x ∈ ([0x4D, 0x5A] : List Byte), isSymbol x = true) ∧ isSymbol 0x30 = false := by decide

theorem witness_DecodeStreamingAgrees : (∀ x ∈ mzxw6, isSymbol x = true) ∧ isSymbol 0x30 = false := by decide

theorem witness_DecodeEmptyTexts :
    (∀ c ∈ (machine (request 0x01 [0x20, 0x20])).req.src.bytes, inTrimSet Config.params c = true) ∧
      ∀ c ∈ (machine (request 0x01 [0x20, 0x2D, 0x3D])).req.src.bytes, isSep c = true ∨ isPad c = true := by decide

theorem witness_RoundTrip : (machine (request 0x00 mzxw6)).req.src.len < 2 ^ 28 := by decide

/-- Both cases: a symbol that completes no byte and one that does. -/
theorem witness_ExtraSymbolIgnored : (∀ x ∈ mzxw6, isSymbol x = true) ∧ mzxw6.length % 8 = 5 ∧ isSymbol 0x37 = true ∧
    dec stub ([0x41] ++ [0x41]) ≠ dec stub [0x41] := by decide

/-- An offender inside the text, 0x30. -/
theorem witness_OffenderIsRawCode : ∃ t, exec .b32dec (machine (request 0x01 mz0w6)) = .next t ∧
    t.resp.status = .invalidCharacter ∧ t.resp.errchar = 0x30 := ⟨_, rfl, by decide, by decide⟩

theorem witness_SeparatorsAndCaseTolerated : ∀ c ∈ ([0x6D, 0x2D, 0x20, 0x5A] : List Byte),
    inTrimSet stub c = true → c = 0x20 := by decide

theorem witness_DecodeLengthBound : ∃ t, exec .b32dec (machine (request 0x01 mzxw6)) = .next t ∧
    t.resp.res.len = 5 * 5 / 8 := ⟨_, rfl, by decide⟩

theorem witness_UnsupportedWithoutPrimitive : ({ machine (request 0x3A mzxw6) with algok := false } : State).algok = false :=
  rfl

/-- The boundary values of the PIN length, on both sides. -/
theorem witness_PinLengthChecked : (machine (request 0x02 mzxw6)).algok = true ∧
    ([0, 10, -1, 0x80000000] : List PinLen).all (fun p => !(decide (1 ≤ p.toInt) && decide (p.toInt ≤ 9))) = true ∧
    ([1, 9] : List PinLen).all (fun p => decide (1 ≤ p.toInt) && decide (p.toInt ≤ 9)) = true ∧
    ∃ t, exec (.totpgen false false false) (machine (request 0x02 mzxw6)) = .next t :=
  ⟨rfl, by decide, by decide, _, rfl⟩

/-- A step of 0, which is rejected, and of 1, which is not. -/
theorem witness_TimeStepChecked :
    let s := machine { request 0x02 mzxw6 with step := 0 }
    s.algok = true ∧ 1 ≤ s.req.pinlen.toInt ∧ s.req.pinlen.toInt ≤ 9 ∧ s.req.step.toInt ≤ 0 ∧
      ¬((1 : Time).toInt ≤ 0) ∧ next? (exec (.totpgen false false false) s) (fun t => t.resp.status == .invalidTimeStep) =
        true := by decide

/-- `DIFF` = 2^63 under both policies, and the number it is read as when it wraps. -/
theorem witness_DifferenceOutside64Bits :
    let b : Bound := ⟨0x7FFFFFFFFFFFFFFF, -1, 30, 6⟩
    1 ≤ b.pin.toInt ∧ b.pin.toInt ≤ 9 ∧ 0 < b.step.toInt ∧ 2 ^ 63 - 1 < b.now.toInt - b.start.toInt ∧
      stub.overflow = .fault ∧ ({ stub with overflow := .wrap } : Params).overflow = .wrap ∧
      (2 ^ 64 : Int) ∣ (b.now.toInt - b.start.toInt) - (-2 ^ 63) := by decide

theorem witness_CounterOverflowReported :
    let s := machine { request 0x02 mzxw6 with now := 0x7FFFFFFFFFFFFFFF, wallclk := 0x8000000000000000, start := -1 }
    let s' := machine { request 0x06 mzxw6 with wallclk := 0x8000000000000000, start := 1 }
    let b := bindParams s.req.now false false false s.req
    let b' := bindParams s'.req.wallclk false false false s'.req
    stub.overflow = .fault ∧
      next? (execWith { stub with overflow := .wrap } (.totpgen false false false) s) (fun t => t.resp.status == .ok) = true ∧
      s.algok = true ∧ 1 ≤ b.pin.toInt ∧ b.pin.toInt ≤ 9 ∧ 0 < b.step.toInt ∧ 2 ^ 63 ≤ b.now.toInt - b.start.toInt ∧
      1 ≤ b'.pin.toInt ∧ b'.pin.toInt ≤ 9 ∧ 0 < b'.step.toInt ∧ b'.now.toInt - b'.start.toInt < -2 ^ 63 := by decide

/-- The 65-bit case of R103 (V12). -/
theorem witness_CounterIsFloor : (0 : Int) < 2 ^ 63 - 1 ∧ (-2 ^ 63 : Int) ≤ -2 ^ 63 ∧ (-2 ^ 63 : Int) ≤ 2 ^ 63 - 1 ∧
    counter (-2 ^ 63) (2 ^ 63 - 1) = -2 ∧ counter (-2 ^ 63) 1 = -2 ^ 63 := by decide

/-- The parameters of `request` are admissible, and one text decodes and the other does not. -/
theorem witness_SecretDecodedAsB32dec :
    let s := machine (request 0x02 mzxw6)
    let s' := machine (request 0x06 mz0w6)
    s.algok = true ∧ (bindParams s.req.now false false false s.req).admissible ∧
      (bindParams s'.req.wallclk false false false s'.req).admissible ∧
      next? (exec .b32dec s) (fun u => u.resp.status == .ok) = true ∧
      next? (exec .b32dec s') (fun u => u.resp.status == .invalidCharacter) = true :=
  ⟨rfl, ⟨by decide, by decide, by decide, by decide, by decide⟩,
    ⟨by decide, by decide, by decide, by decide, by decide⟩, by decide, by decide⟩

theorem witness_TotpgenDeliversPin :
    let s := machine (request 0x02 mzxw6)
    s.algok = true ∧ (bindParams s.req.now false false false s.req).admissible ∧
      dec Config.params s.req.src.bytes = .ok [0x66, 0x6F, 0x6F] :=
  ⟨rfl, ⟨by decide, by decide, by decide, by decide, by decide⟩, by decide⟩

theorem witness_TotpgenwDeliversPin :
    let s := machine (request 0x3E mzxw6)
    s.algok = true ∧ (bindParams s.req.wallclk true true true s.req).admissible ∧
      dec Config.params s.req.src.bytes = .ok [0x66, 0x6F, 0x6F] :=
  ⟨rfl, ⟨by decide, by decide, by decide, by decide, by decide⟩, by decide⟩

/-- A digest for each clause (V13): empty, too short for certain, not fitting, fitting, and 19 bytes. -/
theorem witness_TruncationOfDigest :
    ([] : List Byte).length = 0 ∧ ([0x12, 0x34, 0x50] : List Byte).length ≤ 3 ∧
    ([0x12, 0x34, 0x56, 0x71] : List Byte).length < 0x71 % 16 + 4 ∧
    0x70 % 16 + 4 ≤ ([0x12, 0x34, 0x56, 0x70] : List Byte).length ∧ 19 ≤ (List.replicate 19 (0xFF : Byte)).length := by
  decide

theorem witness_ConfiguredDigestNeverTooShort :
    ∃ t, exec (.totpgen true true true) (machine (request 0x3A mzxw6)) = .next t := ⟨_, rfl⟩

theorem witness_PinFormat : 42 < 10 ^ 6 ∧ 999999999 < 10 ^ 9 ∧ ∃ c ∈ formatPin 42 6, c = 0x34 := by decide

/-- A different primitive that agrees on the one call, and a run that fails before it. -/
theorem witness_PrimitiveCalledOnKeyAndChallenge :
    let other : List Byte → List Byte → List Byte :=
      fun k m => if k.length = 3 then stub.hmac k m else []
    let run := generateRun stub true ⟨59, 0, 30, 6⟩ mzxw6
    stub.hmac run.gen.key.bytes run.gen.chal.bytes = other run.gen.key.bytes run.gen.chal.bytes ∧
      stub.hmac [] [] ≠ other [] [] ∧
      (generateRun stub true ⟨59, 0, 30, 6⟩ mz0w6).result = .error (.invalidCharacter 0x30) := by decide

/-- `now` = 30 and `now'` = 59 in the window of Counter 1, and `now'` = 60 just past it. -/
theorem witness_TimeStepWindow :
    let s := machine (request 0x02 mzxw6)
    let b := bindParams 30 false false false s.req
    b.admissible ∧ (bindParams 59 false false false s.req).admissible ∧
      (bindParams 60 false false false s.req).admissible ∧
      b.start.toInt + 1 * b.step.toInt ≤ (30 : Time).toInt ∧
      (59 : Time).toInt ≤ b.start.toInt + (1 + 1) * b.step.toInt - 1 ∧
      (60 : Time).toInt = b.start.toInt + (1 + 1) * b.step.toInt :=
  ⟨⟨by decide, by decide, by decide, by decide, by decide⟩,
    ⟨by decide, by decide, by decide, by decide, by decide⟩,
    ⟨by decide, by decide, by decide, by decide, by decide⟩, by decide, by decide, by decide⟩

theorem witness_HotpSpecialCase :
    let s := machine { request 0x02 mzxw6 with step := 1 }
    s.algok = true ∧ s.req.start = 0 ∧ s.req.step = 1 ∧ (bindParams s.req.now false false false s.req).admissible :=
  ⟨rfl, rfl, rfl, ⟨by decide, by decide, by decide, by decide, by decide⟩⟩

theorem witness_ErrorResponses :
    next? (exec .b32dec (machine (request 0x01 mzxw6))) (fun t => t.resp.status == .ok) = true ∧
      next? (exec .b32dec (machine (request 0x01 mz0w6))) (fun t => t.resp.status == .invalidCharacter) = true := by
  decide

theorem witness_StatusCodes :
    (∃ t, exec .b32enc (machine (request 0x00 [])) = .next t) ∧ (∃ t, exec .b32dec (machine (request 0x01 [])) = .next t) ∧
      ∃ t, exec (.totpgen true true true) (machine (request 0x3A [])) = .next t := ⟨⟨_, rfl⟩, ⟨_, rfl⟩, _, rfl⟩

theorem witness_ErrorPriority : stub.overflow = .fault := rfl

end Sys2Proof.Tests
end

section
/-! PROOFS. What a step answers to each move of the host, and what the boundary of a bounded platform refuses. -/

namespace Sys2Proof.Machine

section Boundary

variable {cap : Option Nat} {t : State}

/-- A result that fits is delivered, with the transient registers released (R137). -/
theorem deliver_next_of_admitted (h : admitted cap t.resp.res.len = true) : deliver cap (.next t) = .next t.release :=
  if_pos h

/-- A result that does not fit is refused (R7). -/
theorem deliver_next_of_not_admitted (h : ¬ admitted cap t.resp.res.len = true) :
    deliver cap (.next t) = .refused .resultTooLong :=
  if_neg h

end Boundary

section Moves

variable {P : Params} {run : Instr → State → Host.Outcome State Fault Refusal} {s : State} {r : Request}
  {rest : List HostMove}

theorem stepOf_idle (hp : s.pending = []) : stepOf P run s = .next s := by
  simp only [stepOf, hp]

theorem stepOf_reset (hp : s.pending = .reset :: rest) : stepOf P run s = .next (s.restart P.hmPresent rest) := by
  simp only [stepOf, hp]

theorem stepOf_resetDuring (hp : s.pending = .resetDuring r :: rest) (hr : admitted P.bufCap r.src.len = true) :
    stepOf P run s = .next (s.abandon r P.hmPresent rest) := by
  simp only [stepOf, hp, hr, if_true]

/-- An admitted request with a legal command word: the operation runs on the accepted state, and its answer passes the
boundary (R38, R7). -/
theorem stepOf_request_decoded {i : Instr} (hp : s.pending = .request r :: rest)
    (hr : admitted P.bufCap r.src.len = true) (hd : decode r.cmd = .ok i) :
    stepOf P run s = deliver P.bufCap (run i (s.accept r rest)) := by
  simp only [stepOf, hp, hr, hd, if_true]

/-- An admitted request with an illegal command word starts no operation (R50). -/
theorem stepOf_request_illegal {e : DecodeError} (hp : s.pending = .request r :: rest)
    (hr : admitted P.bufCap r.src.len = true) (hd : decode r.cmd = .error e) :
    stepOf P run s = illegal (s.accept r rest) := by
  simp only [stepOf, hp, hr, hd, if_true]

/-- A request whose operand does not fit is not accepted (R31, R139). -/
theorem stepOf_request_not_admitted (hp : s.pending = .request r :: rest)
    (hr : ¬ admitted P.bufCap r.src.len = true) : stepOf P run s = .refused .operandTooLong := by
  simp only [stepOf, hp, hr, if_false, Bool.false_eq_true]

end Moves

/-- While `BUF_CAP` is unbounded and every operation answers, so does every step (R154). -/
theorem stepOf_answers {P : Params} {run : Instr → State → Host.Outcome State Fault Refusal}
    (hcap : P.bufCap = none) (hrun : ∀ i s, ∃ t, run i s = .next t) (s : State) : ∃ t, stepOf P run s = .next t := by
  have hadm (n : Nat) : admitted P.bufCap n = true := by rw [hcap, admitted_none]
  rcases hp : s.pending with _ | ⟨r | _ | r, rest⟩
  case nil => exact ⟨s, stepOf_idle hp⟩
  case cons.request =>
    rcases hd : decode r.cmd with e | i
    · exact ⟨_, stepOf_request_illegal hp (hadm _) hd⟩
    · obtain ⟨t, ht⟩ := hrun i (s.accept r rest)
      exact ⟨t.release, by rw [stepOf_request_decoded hp (hadm _) hd, ht, deliver_next_of_admitted (hadm _)]⟩
  case cons.reset => exact ⟨_, stepOf_reset hp⟩
  case cons.resetDuring => exact ⟨_, stepOf_resetDuring hp (hadm _)⟩

/-- Settles O7: the instance's `BUF_CAP` is unbounded and every instruction completes; with a bound, the boundary's two
tests decide. -/
theorem everyStepAnswers : Obligations.EveryStepAnswers := by
  refine ⟨stepOf_answers Config.params_bufCap fun i s => ?_, step_eq_stepWith, fun P cap s r rest hcap hp => ?_⟩
  · obtain ⟨run, hrun⟩ := exec_completes i s
    exact ⟨_, hrun⟩
  have hadm (n : Nat) : admitted P.bufCap n = true ↔ n ≤ cap := by rw [hcap, admitted_some]
  refine ⟨fun hlong => stepOf_request_not_admitted hp ((hadm _).not.2 hlong.not_ge),
    fun hfits => ⟨fun i hd => ?_, fun e hd => ?_⟩⟩
  · obtain ⟨run, hrun⟩ := execWith_completes P i (s.accept r rest)
    have hstep : stepWith P s = deliver P.bufCap (.next ((s.accept r rest).complete run)) := by
      rw [stepWith, stepOf_request_decoded hp ((hadm _).2 hfits) hd, hrun]
    exact ⟨_, hrun, fun hres => hstep.trans (deliver_next_of_admitted ((hadm _).2 hres)),
      fun hres => hstep.trans (deliver_next_of_not_admitted ((hadm _).not.2 hres.not_ge))⟩
  · exact ⟨_, stepOf_request_illegal hp ((hadm _).2 hfits) hd, rfl⟩

end Sys2Proof.Machine
end

section
/-! PROOFS. What an operation does to the state, for every instruction at once: the run it completes, what it leaves
unchanged, the range of its registers, and from these the machine's invariant and the irrelevance of its history. -/

namespace Sys2Proof.Machine

/-! ## The run of an instruction -/

/-- The run an instruction completes. `ALGOK` and the request ports are all it can depend on (R13, R49). -/
def opRun (P : Params) (algok : Bool) (r : Request) : Instr → Run
  | .b32enc => encodeRun r.src
  | .b32dec => decodeRun P r.src
  | .totpgen dp dt ds => generateRun P algok (bindParams r.now dp dt ds r) r.src.bytes
  | .totpgenw dp dt ds => generateRun P algok (bindParams r.wallclk dp dt ds r) r.src.bytes

theorem exec_eq_complete_opRun (i : Instr) (s : State) :
    exec i s = .next (s.complete (opRun Config.params s.algok s.req i)) := by
  cases i <;> rfl

theorem exec_eq_next_iff {i : Instr} {s t : State} :
    exec i s = .next t ↔ t = s.complete (opRun Config.params s.algok s.req i) := by
  rw [exec_eq_complete_opRun, Host.Outcome.next.injEq, eq_comm]

/-- Completing a run overwrites all that an earlier one left. -/
@[simp] theorem State.complete_complete (s : State) (run run' : Run) :
    (s.complete run).complete run' = s.complete run' := rfl

/-- An operation leaves the host's moves, the request ports and `ALGOK` as they were (R13, R21). -/
theorem exec_frame {i : Instr} {s t : State} (h : exec i s = .next t) :
    t.pending = s.pending ∧ t.req = s.req ∧ t.algok = s.algok := by
  rw [exec_eq_next_iff] at h
  subst h
  exact ⟨rfl, rfl, rfl⟩

/-- An operation run again where it ended changes nothing. -/
theorem exec_idempotent {i : Instr} {s t : State} (h : exec i s = .next t) : exec i t = .next t := by
  rw [exec_eq_next_iff] at h ⊢
  subst h
  exact (State.complete_complete s _ _).symm

/-- Settles O14: an operation run again where it ended changes nothing, its response included. -/
theorem repeatedRequestSameResponse : Obligations.RepeatedRequestSameResponse :=
  fun _ _ t h => ⟨t, exec_idempotent h, rfl⟩

/-! ## Registers in range at the end of every operation (R22, R23) -/

/-- The registers a run leaves are in range. -/
def Run.inRange (run : Run) : Prop := run.codec.inRange ∧ run.gen.inRange

theorem CodecRegs.zero_inRange : CodecRegs.zero.inRange := ⟨by decide, by decide⟩

theorem encodeRun_codec_inRange (src : Buffer) : (encodeRun src).codec.inRange := by
  unfold encodeRun
  split
  · exact CodecRegs.zero_inRange
  · obtain ⟨-, hrange, -⟩ := encLoop_inRange CodecRegs.zero [] src.bytes (by decide) CodecRegs.zero_inRange
    exact hrange

theorem decRegs_inRange (P : Params) (t : List Byte) : (decRegs P t).inRange :=
  decStream_inRange CodecRegs.zero [] (clean P t) CodecRegs.zero_inRange

/-- `CHAL` at reset is the Challenge of the Counter 0 (R26, R105). -/
theorem GenRegs.zero_inRange : GenRegs.zero.inRange :=
  ⟨by decide, rfl, rfl, by decide, rfl⟩

/-- A register set in range stays so when `CTR` and `CHAL` are set together (R105). -/
theorem GenRegs.inRange.setCounter {g : GenRegs} (h : g.inRange) (ctr : Time) :
    { g with ctr := ctr, chal := Buffer.ofBytes (challenge ctr) }.inRange := by
  obtain ⟨hpin, hkey, hdig, -, hoff⟩ := h
  exact ⟨hpin, hkey, hdig, rfl, hoff⟩

theorem GenRegs.inRange.setDiff {g : GenRegs} (h : g.inRange) (diff : BitVec 65) :
    { g with diff := diff }.inRange := h

theorem GenRegs.inRange.setKey {g : GenRegs} (h : g.inRange) (key : List Byte) :
    { g with key := Buffer.ofBytes key }.inRange := by
  obtain ⟨hpin, -, hdig, hchal, hoff⟩ := h
  exact ⟨hpin, Buffer.wf_ofBytes key, hdig, hchal, hoff⟩

/-- A register set in range stays so when `DIG` and `OFF` are set together (R109). -/
theorem GenRegs.inRange.setDigest {g : GenRegs} (h : g.inRange) (dig : List Byte) :
    { g with dig := Buffer.ofBytes dig, off := truncOffset dig }.inRange := by
  obtain ⟨hpin, hkey, -, hchal, -⟩ := h
  exact ⟨hpin, hkey, Buffer.wf_ofBytes dig, hchal, by rw [Buffer.bytes_ofBytes]⟩

/-- A register set in range stays so when `TH` and a `PINVAL` below 10^9 are set. -/
theorem GenRegs.inRange.setPin {g : GenRegs} (h : g.inRange) (th : BitVec 31) {pin : BitVec 30}
    (hpin : pin.toNat < 10 ^ 9) : { g with th := th, pinval := pin }.inRange := by
  obtain ⟨-, hkey, hdig, hchal, hoff⟩ := h
  exact ⟨hpin, hkey, hdig, hchal, hoff⟩

/-- A PIN of at most 9 digits is below 10^9 (R112). -/
theorem pinValue_lt (th : BitVec 31) {n : Nat} (hn : n ≤ 9) : pinValue th n < 10 ^ 9 :=
  (Nat.mod_lt _ (Nat.pow_pos (by decide))).trans_le (Nat.pow_le_pow_right (by decide) hn)

/-- A `PINLEN` that passes step 1 is at most 9 as a number too (R99). -/
theorem pinLen_toNat_le {pin : PinLen} (h1 : 1 ≤ pin.toInt) (h9 : pin.toInt ≤ 9) : pin.toNat ≤ 9 := by
  have hsign := BitVec.toInt_eq_toNat_cond pin
  split at hsign <;> omega

section Generator

variable {g : GenRegs} {codec : CodecRegs} {n : Nat}

theorem genPin_inRange (hg : g.inRange) (hcodec : codec.inRange) (hn : n ≤ 9) (dig : List Byte) :
    (genPin g codec n dig).inRange := by
  have hdig := hg.setDigest dig
  unfold genPin
  split
  · have hpin : (BitVec.ofNat 30 (pinValue (truncatedHash dig) n)).toNat < 10 ^ 9 := by
      rw [BitVec.toNat_ofNat]
      exact (Nat.mod_le _ _).trans_lt (pinValue_lt _ hn)
    exact ⟨hcodec, hdig.setPin _ hpin⟩
  · exact ⟨hcodec, hdig⟩

theorem genDigest_inRange (P : Params) (hg : g.inRange) (hn : n ≤ 9) (chal text : List Byte) :
    (genDigest P g n chal text).inRange := by
  unfold genDigest
  split
  · exact ⟨decRegs_inRange P text, hg⟩
  · exact genPin_inRange (hg.setKey _) (decRegs_inRange P text) hn _

end Generator

/-- Binding writes none of the registers the range speaks of. -/
theorem genBind_inRange (b : Bound) : (genBind b).inRange := GenRegs.zero_inRange

theorem genTime_inRange (P : Params) {b : Bound} (hn : b.pin.toNat ≤ 9) (text : List Byte) :
    (genTime P b text).inRange := by
  have hdiff := (genBind_inRange b).setDiff (BitVec.ofInt 65 (exactDiff b))
  unfold genTime
  split
  · exact ⟨CodecRegs.zero_inRange, hdiff⟩
  · exact genDigest_inRange P (hdiff.setCounter _) hn _ text

theorem generateRun_inRange (P : Params) (algok : Bool) (b : Bound) (text : List Byte) :
    (generateRun P algok b text).inRange := by
  unfold generateRun
  split
  · exact ⟨CodecRegs.zero_inRange, genBind_inRange b⟩
  · rename_i hcheck
    obtain ⟨-, h1, h9, -⟩ := (genCheck_eq_none_iff algok b).1 hcheck
    exact genTime_inRange P (pinLen_toNat_le h1 h9) text

/-- The generator's registers are not live in an encode (R23). -/
@[simp] theorem encodeRun_gen (src : Buffer) : (encodeRun src).gen = GenRegs.zero := by
  unfold encodeRun
  split <;> rfl

/-- The generator's registers are not live in a decode (R23). -/
@[simp] theorem decodeRun_gen (P : Params) (src : Buffer) : (decodeRun P src).gen = GenRegs.zero := rfl

theorem opRun_inRange (P : Params) (algok : Bool) (r : Request) (i : Instr) : (opRun P algok r i).inRange := by
  cases i with
  | b32enc => exact ⟨encodeRun_codec_inRange r.src, encodeRun_gen r.src ▸ GenRegs.zero_inRange⟩
  | b32dec => exact ⟨decRegs_inRange P r.src.bytes, GenRegs.zero_inRange⟩
  | totpgen dp dt ds => exact generateRun_inRange P algok _ _
  | totpgenw dp dt ds => exact generateRun_inRange P algok _ _

/-! ## The response (R58) -/

/-- Only `InvalidCharacter` has a character to report. -/
theorem Error.char_eq_zero {e : Error} (h : e.status ≠ .invalidCharacter) : e.char = 0 := by
  cases e with
  | invalidCharacter c => exact absurd rfl h
  | _ => rfl

theorem Response.of_wellFormed (r : Result) : (Response.of r).wellFormed := by
  refine ⟨Response.of_res_wf r, ?_, ?_⟩
  · cases r with
    | ok bytes => exact fun h => absurd rfl h
    | error e => exact fun _ => rfl
  · cases r with
    | ok bytes => exact fun _ => rfl
    | error e => exact Error.char_eq_zero

/-- The response ports at reset (R26). -/
theorem Response.reset_wellFormed : Response.wellFormed ⟨.ok, 0, Buffer.empty⟩ :=
  ⟨rfl, fun _ => rfl, fun _ => rfl⟩

/-- Every operation ends with its registers in range and a well-formed response. -/
theorem exec_inRange {i : Instr} {s t : State} (h : exec i s = .next t) :
    t.codec.inRange ∧ t.gen.inRange ∧ t.resp.wellFormed := by
  rw [exec_eq_next_iff] at h
  subst h
  obtain ⟨hcodec, hgen⟩ := opRun_inRange Config.params s.algok s.req i
  exact ⟨hcodec, hgen, Response.of_wellFormed _⟩

/-! ## The invariant between requests -/

/-- Settles O15: the reset values are zeros and empty buffers, and no move is pending. -/
theorem invariantAtReset : Obligations.InvariantAtReset :=
  ⟨⟨⟨rfl, rfl⟩, Response.reset_wellFormed, rfl⟩, rfl, fun _ hr => by simp [State.reset] at hr⟩

/-- The host's operands stay canonical when its first move is made, whether the ports then show what they showed or the
operands of that move. -/
theorem State.OperandsCanonical.of_move {s t : State} {m : HostMove} (h : s.OperandsCanonical)
    (hp : s.pending = m :: t.pending)
    (hreq : t.req = s.req ∨ m = .request t.req ∨ m = .resetDuring t.req) : t.OperandsCanonical := by
  obtain ⟨hports, hmoves⟩ := h
  simp only [hp, List.mem_cons] at hmoves
  refine ⟨?_, fun r hr => hmoves r (hr.imp .inr .inr)⟩
  obtain hsame | hmove := hreq
  · rw [hsame]; exact hports
  · exact hmoves t.req (hmove.imp (.inl ·.symm) (.inl ·.symm))

theorem step_operandsCanonical {s t : State} (h : s.OperandsCanonical) (hstep : step s = .next t) :
    t.OperandsCanonical := by
  obtain ⟨-, rfl⟩ | ⟨rest, hp, rfl⟩ | ⟨r, rest, hp, rfl⟩ | ⟨r, rest, i, run, hp, -, -, rfl⟩ |
    ⟨r, rest, e, hp, -, rfl⟩ := step_next_cases hstep
  · exact h
  · exact h.of_move hp (.inl rfl)
  · exact h.of_move hp (.inr (.inr rfl))
  · exact h.of_move hp (.inr (.inl rfl))
  · exact h.of_move hp (.inr (.inl rfl))

theorem step_inv {s t : State} (h : s.Inv) (hstep : step s = .next t) : t.Inv := by
  obtain ⟨hidle, hresp, halgok⟩ := h
  obtain ⟨-, rfl⟩ | ⟨rest, -, rfl⟩ | ⟨r, rest, -, rfl⟩ | ⟨r, rest, i, run, -, -, -, rfl⟩ |
    ⟨r, rest, e, -, -, rfl⟩ := step_next_cases hstep
  · exact ⟨hidle, hresp, halgok⟩
  · exact ⟨⟨rfl, rfl⟩, Response.reset_wellFormed, rfl⟩
  · exact ⟨⟨rfl, rfl⟩, Response.reset_wellFormed, rfl⟩
  · exact ⟨⟨rfl, rfl⟩, Response.of_wellFormed run.result, halgok⟩
  · exact ⟨hidle, Response.of_wellFormed (.error .illegalCommand), halgok⟩

/-- Settles O16: by the cases of a step, and by the range of the run each instruction completes. -/
theorem stepKeepsInvariant : Obligations.StepKeepsInvariant :=
  ⟨fun _ _ hinv hops hstep => ⟨step_inv hinv hstep, step_operandsCanonical hops hstep⟩, fun _ _ _ => exec_inRange⟩

/-! ## Frames -/

theorem Memory.read_eq_unlistedByte {m : Memory} {a : Nat} (h : ∀ c ∈ m, c.1 ≠ a) : m.read a = unlistedByte := by
  induction m with
  | nil => rfl
  | cons c rest ih =>
    rw [List.forall_mem_cons] at h
    obtain ⟨hc, hrest⟩ := h
    rw [Memory.read, if_neg hc, ih hrest]

/-- A canonical buffer lists no byte at or above its length. -/
theorem Buffer.read_of_len_le {b : Buffer} (h : b.wf = true) {a : Nat} (ha : b.len ≤ a) :
    b.cells.read a = unlistedByte := by
  simp only [Buffer.wf, Bool.and_eq_true, List.all_eq_true, decide_eq_true_eq] at h
  obtain ⟨-, hlisted⟩ := h
  exact Memory.read_eq_unlistedByte fun c hc => ((hlisted c hc).trans_le ha).ne

/-- An operation writes `RES` below `RESLEN` only. -/
theorem exec_res_read {i : Instr} {s t : State} (h : exec i s = .next t) {a : Nat} (ha : t.resp.res.len ≤ a) :
    t.resp.res.cells.read a = unlistedByte := by
  obtain ⟨-, -, hwf, -⟩ := exec_inRange h
  exact Buffer.read_of_len_le hwf ha

/-- The generator's registers are not live in a codec operation, which leaves 0 in them. -/
theorem exec_codec_gen {s t : State} (h : exec .b32enc s = .next t ∨ exec .b32dec s = .next t) :
    t.gen = GenRegs.zero := by
  rw [exec_eq_next_iff, exec_eq_next_iff] at h
  obtain rfl | rfl := h
  · exact encodeRun_gen s.req.src
  · exact decodeRun_gen Config.params s.req.src

/-- Settles O17: the frame of every operation, the registers a codec run leaves, and the canonical form of `RES`. -/
theorem codecFrame : Obligations.CodecFrame := by
  intro s t h
  obtain ⟨i, hi⟩ : ∃ i, exec i s = .next t := h.elim (⟨_, ·⟩) (⟨_, ·⟩)
  obtain ⟨hpending, hreq, halgok⟩ := exec_frame hi
  exact ⟨hpending, hreq, halgok, exec_codec_gen h, fun _ => by rw [hreq], fun _ => exec_res_read hi⟩

/-- Settles O18: the frame of every operation, and the canonical form of each buffer it leaves. -/
theorem generatorFrame : Obligations.GeneratorFrame := by
  intro dp dt ds s t h
  obtain ⟨i, hi⟩ : ∃ i, exec i s = .next t := h.elim (⟨_, ·⟩) (⟨_, ·⟩)
  obtain ⟨hpending, hreq, halgok⟩ := exec_frame hi
  obtain ⟨-, ⟨-, hkey, hdig, hchal, -⟩, -⟩ := exec_inRange hi
  have hchalWf : t.gen.chal.wf = true := hchal ▸ Buffer.wf_ofBytes _
  exact ⟨hpending, hreq, halgok, fun _ => by rw [hreq], fun _ => exec_res_read hi,
    fun _ => Buffer.read_of_len_le hkey, fun _ => Buffer.read_of_len_le hchalWf, fun _ => Buffer.read_of_len_le hdig⟩

/-! ## The step on a request, and the irrelevance of history (R13) -/

section Step

variable {s : State} {r : Request} {rest : List HostMove}

theorem step_request_decoded {i : Instr} (hp : s.pending = .request r :: rest) (hd : decode r.cmd = .ok i) :
    step s = .next ((s.accept r rest).complete (opRun Config.params s.algok r i)).release := by
  rw [step, stepOf_request_decoded hp rfl hd, exec_eq_complete_opRun]
  rfl

theorem step_request_illegal {e : DecodeError} (hp : s.pending = .request r :: rest) (hd : decode r.cmd = .error e) :
    step s = illegal (s.accept r rest) :=
  stepOf_request_illegal hp rfl hd

/-- Every request is accepted: it stands on the ports and its move is gone (R17, R38). -/
theorem step_accepts (hp : s.pending = .request r :: rest) : ∃ t, step s = .next t ∧ t.req = r ∧ t.pending = rest := by
  rcases hd : decode r.cmd with e | i
  · exact ⟨_, step_request_illegal hp hd, rfl, rfl⟩
  · exact ⟨_, step_request_decoded hp hd, rfl, rfl⟩

end Step

/-- The transient registers before an operation are never observed: it clears them at its start (R26). -/
theorem exec_ignores_registers (i : Instr) (s : State) (codec : CodecRegs) (gen : GenRegs) :
    exec i { s with codec := codec, gen := gen } = exec i s := by
  rw [exec_eq_complete_opRun, exec_eq_complete_opRun]
  rfl

/-- Settles O8: the reset values are those of the definition, every request is accepted, and an operation overwrites the
transient registers. -/
theorem resetState : Obligations.ResetState :=
  ⟨rfl, rfl, rfl, rfl, rfl, rfl, ⟨rfl, rfl, rfl, rfl, rfl, rfl, rfl, rfl, rfl, rfl, rfl, rfl⟩,
    fun _ _ _ => step_accepts rfl, exec_ignores_registers⟩

/-- Two states that the host cannot tell apart, now or later: the same response, `ALGOK` and moves to come. -/
structure State.Alike (s s' : State) : Prop where
  resp : s.resp = s'.resp
  algok : s.algok = s'.algok
  pending : s.pending = s'.pending

/-- Equal `ALGOK` and equal moves to come make a step end in states alike. Only where no move is to come does the step
show the old response. -/
theorem step_alike {s s' : State} (ha : s.algok = s'.algok) (hp : s.pending = s'.pending)
    (hr : s.pending = [] → s.resp = s'.resp) :
    ∃ t t', step s = .next t ∧ step s' = .next t' ∧ t.Alike t' := by
  rcases hm : s.pending with _ | ⟨r | _ | r, rest⟩ <;> have hm' := hp.symm.trans hm
  case nil => exact ⟨s, s', stepOf_idle hm, stepOf_idle hm', hr hm, ha, hp⟩
  case cons.request =>
    rcases hd : decode r.cmd with e | i
    · exact ⟨_, _, step_request_illegal hm hd, step_request_illegal hm' hd, rfl, ha, rfl⟩
    · exact ⟨_, _, step_request_decoded hm hd, step_request_decoded hm' hd, by simp [ha], ha, rfl⟩
  case cons.reset => exact ⟨_, _, stepOf_reset hm, stepOf_reset hm', rfl, rfl, rfl⟩
  case cons.resetDuring => exact ⟨_, _, stepOf_resetDuring hm rfl, stepOf_resetDuring hm' rfl, rfl, rfl, rfl⟩

/-- States alike show the same response after every number of steps. -/
theorem State.Alike.run {s s' : State} (h : s.Alike s') (k : Nat) :
    ∃ t t', Sys2Proof.core.run k s = .next t ∧ Sys2Proof.core.run k s' = .next t' ∧ t.resp = t'.resp := by
  induction k generalizing s s' with
  | zero => exact ⟨s, s', core_run_zero s, core_run_zero s', h.resp⟩
  | succ k ih =>
    obtain ⟨u, u', hu, hu', halike⟩ := step_alike h.algok h.pending fun _ => h.resp
    rw [core_run_succ k hu, core_run_succ k hu']
    exact ih halike

/-- Settles O12: the first step makes the two states alike, and they stay so. -/
theorem historyNeverMatters : Obligations.HistoryNeverMatters := by
  intro s s' k ha hp hmove
  obtain ⟨u, u', hu, hu', halike⟩ := step_alike ha hp fun hnil => absurd hnil hmove
  rw [core_run_succ k hu, core_run_succ k hu']
  exact halike.run k

end Sys2Proof.Machine
end

section
/-! PROOFS. The step on a request is the operation, then the release; and how many bytes a decode delivers. -/

namespace Sys2Proof.Machine

/-- Settles O5: the operation completes a run on the accepted state, and the step is that state released. -/
theorem stepRunsDecodedInstruction : Obligations.StepRunsDecodedInstruction :=
  fun s r rest i hp hd => ⟨_, exec_eq_complete_opRun i (s.accept r rest), step_request_decoded hp hd⟩

/-! ## The length of a decode -/

/-- A decode that succeeds gives the whole bytes of 5 bits for each cleaned symbol, and cleaning never lengthens the text
(R86, R87). -/
theorem length_le_of_dec_eq_ok {P : Params} {t out : List Byte} (h : dec P t = .ok out) :
    out.length ≤ 5 * t.length / 8 := by
  obtain ⟨-, rfl⟩ := (dec_eq_ok_iff P t out).1 h
  rw [decBits_length]
  exact Nat.div_le_div_right (Nat.mul_le_mul_left 5 (clean_length_le P t))

theorem decodeRun_result_of_ok {P : Params} {src : Buffer} {out : List Byte} (h : dec P src.bytes = .ok out) :
    (decodeRun P src).result = .ok out := by
  simp only [decodeRun, h]

theorem decodeRun_result_of_error {P : Params} {src : Buffer} {c : Byte} (h : dec P src.bytes = .error c) :
    (decodeRun P src).result = .error (.invalidCharacter c) := by
  simp only [decodeRun, h]

/-- The response of a decode is bounded by its source, over any parameters: an error delivers nothing. -/
theorem decodeRun_res_len_le (P : Params) (src : Buffer) :
    (Response.of (decodeRun P src).result).res.len ≤ 5 * src.len / 8 := by
  rcases h : dec P src.bytes with c | out
  case error =>
    rw [decodeRun_result_of_error h]
    exact Nat.zero_le _
  case ok =>
    rw [decodeRun_result_of_ok h, ← Buffer.bytes_length src]
    exact length_le_of_dec_eq_ok h

/-- Settles O39: the delivered buffer is the response of the decode's run on the source. -/
theorem decodeLengthBound : Obligations.DecodeLengthBound := by
  intro s t h
  rw [exec_eq_next_iff] at h
  subst h
  exact decodeRun_res_len_le Config.params s.req.src

end Sys2Proof.Machine
end

section
/-! PROOFS. The command word: the decoder's tests as arithmetic on the word, a word as its fields after one another, and
from these that decoding and encoding are inverse to one another. -/

namespace Sys2Proof

/-! ## Fields of a word (R46) -/

theorem extractLsb'_eq_iff {w : Byte} {start len : Nat} {v : BitVec len} :
    w.extractLsb' start len = v ↔ w.toNat / 2 ^ start % 2 ^ len = v.toNat := by
  rw [← BitVec.toNat_inj, BitVec.extractLsb'_toNat, Nat.shiftRight_eq_div_pow]

/-- One bit of a word is its field of one bit. -/
theorem ofBool_getLsbD {n : Nat} (w : BitVec n) (k : Nat) : BitVec.ofBool (w.getLsbD k) = w.extractLsb' k 1 := by
  ext i hi
  obtain rfl : i = 0 := by omega
  simp

/-- A word is `RSV`, the four flags and `OP` after one another. -/
theorem append_fields (w : Byte) : w.extractLsb' 6 2 ++ w.extractLsb' 2 4 ++ w.extractLsb' 0 2 = w := by
  simp only [BitVec.extractLsb'_append_extractLsb'_eq_extractLsb']
  exact BitVec.extractLsb'_eq_self

/-- A word with `RSV` and the flags 0 is its `OP` under six zero bits. -/
theorem codecWord_of_fields {w : Byte} {op : BitVec 2} (hrsv : w.extractLsb' 6 2 = 0) (hflags : w.extractLsb' 2 4 = 0)
    (hop : w.extractLsb' 0 2 = op) : (0 : BitVec 2) ++ (0 : BitVec 4) ++ op = w := by
  rw [← hrsv, ← hflags, ← hop, append_fields]

/-- A word with `RSV` = 0 and `OP` = 2 is the generator word of its own four bits between them. -/
theorem generatorWord_of_fields {w : Byte} (hrsv : w.extractLsb' 6 2 = 0) (hop : w.extractLsb' 0 2 = 2) :
    generatorWord (w.getLsbD 5) (w.getLsbD 4) (w.getLsbD 3) (w.getLsbD 2) = w := by
  rw [generatorWord, ← hrsv, ← hop]
  simp only [ofBool_getLsbD, BitVec.extractLsb'_append_extractLsb'_eq_extractLsb']
  exact BitVec.extractLsb'_eq_self

/-! ## Decoding and encoding -/

/-- The decoder's tests on the fields as numbers. -/
theorem decode_eq (w : Byte) : decode w =
    if w.toNat / 64 ≠ 0 then .error .reservedBits
    else if w.toNat % 4 = 3 then .error .reservedOperation
    else if w.toNat % 4 = 0 then if w.toNat / 4 % 16 = 0 then .ok .b32enc else .error .codecFlags
    else if w.toNat % 4 = 1 then if w.toNat / 4 % 16 = 0 then .ok .b32dec else .error .codecFlags
    else if w.getLsbD 2 = false then .ok (.totpgen (w.getLsbD 5) (w.getLsbD 4) (w.getLsbD 3))
    else .ok (.totpgenw (w.getLsbD 5) (w.getLsbD 4) (w.getLsbD 3)) := by
  have hrsv : w.toNat / 64 % 4 = w.toNat / 64 := Nat.mod_eq_of_lt (by omega)
  simp [decode, extractLsb'_eq_iff, hrsv]

/-- Settles O1: the decoder's fields are the quotients and remainders of R63. -/
theorem decodeFollowsPseudocode : Obligations.DecodeFollowsPseudocode := by
  intro w
  simp only [decode_eq w]
  split_ifs <;> rfl

theorem decode_generatorWord (dp dt ds w : Bool) :
    decode (generatorWord dp dt ds w) = .ok (if w then .totpgenw dp dt ds else .totpgen dp dt ds) := by
  revert dp dt ds w
  decide

theorem decode_encode (i : Instr) : decode (encode i) = .ok i := by
  cases i with
  | b32enc => exact decode_word_b32enc
  | b32dec => exact decode_word_b32dec
  | totpgen dp dt ds => exact decode_generatorWord dp dt ds false
  | totpgenw dp dt ds => exact decode_generatorWord dp dt ds true

/-- The decoder's tests leave no field of the word free but the three flags. -/
theorem encode_of_decode {w : Byte} {i : Instr} (h : decode w = .ok i) : encode i = w := by
  unfold decode at h
  split_ifs at h with hrsv hop3 hop0 hflags hop1 hflags hw <;> cases h <;> rw [ne_eq, not_not] at hrsv
  case pos.refl => exact codecWord_of_fields hrsv hflags hop0
  case pos.refl => exact codecWord_of_fields hrsv hflags hop1
  all_goals
    have hop : w.extractLsb' 0 2 = 2 := by bv_omega
    have hword := generatorWord_of_fields hrsv hop
  case pos.refl => rwa [hw] at hword
  case neg.refl => rwa [eq_true_of_ne_false hw] at hword

/-- Settles O3: encoding sets the fields the decoder tests, and the decoder tests every field that encoding sets. -/
theorem decodeEncodeAgree : Obligations.DecodeEncodeAgree := ⟨decode_encode, fun _ _ => encode_of_decode⟩

/-- Settles O4: each word is the encoding of its instruction. -/
theorem sampleWordsDecode : Obligations.SampleWordsDecode :=
  ⟨decode_encode .b32enc, decode_encode .b32dec, decode_encode (.totpgen true true true),
    decode_encode (.totpgen false false true), decode_encode (.totpgenw false true false),
    decode_encode (.totpgenw true false false)⟩

/-- The 18 legal values of `CMD` (R50). -/
def legalWords : List Byte :=
  [0x00, 0x01, 0x02, 0x0A, 0x12, 0x1A, 0x22, 0x2A, 0x32, 0x3A, 0x06, 0x0E, 0x16, 0x1E, 0x26, 0x2E, 0x36, 0x3E]

theorem encode_mem_legalWords (i : Instr) : encode i ∈ legalWords := by
  cases i with
  | b32enc => decide
  | b32dec => decide
  | totpgen dp dt ds => revert dp dt ds; decide
  | totpgenw dp dt ds => revert dp dt ds; decide

theorem exists_decode_eq_ok_iff {w : Byte} : (∃ i, decode w = .ok i) ↔ (decode w).toBool = true := by
  cases decode w <;> simp [Except.toBool]

theorem exists_decode_eq_ok_iff_mem_legalWords (w : Byte) : (∃ i, decode w = .ok i) ↔ w ∈ legalWords := by
  constructor
  · rintro ⟨i, hi⟩
    exact encode_of_decode hi ▸ encode_mem_legalWords i
  · have hlegal : ∀ w ∈ legalWords, (decode w).toBool = true := by decide
    exact fun hw => exists_decode_eq_ok_iff.2 (hlegal w hw)

/-- Settles O2: the legal words are those of the instructions, and the step on any other starts no operation. -/
theorem illegalCommandWords : Obligations.IllegalCommandWords :=
  ⟨exists_decode_eq_ok_iff_mem_legalWords, fun _ _ _ _ hp hd => Machine.step_request_illegal hp hd⟩

end Sys2Proof
end

section
/-! PROOFS. The characters of a text operand: the alphabet and the classes (R51, R52). -/

namespace Sys2Proof.Machine

/-! ## The alphabet -/

@[simp] theorem val_alpha (v : BitVec 5) : val (alpha v) = some v := by
  have hv : v.toNat < 32 := v.isLt
  unfold alpha
  split
  case isTrue hletter =>
    have hc : (BitVec.ofNat 8 (0x41 + v.toNat)).toNat = 0x41 + v.toNat := Nat.mod_eq_of_lt (by omega)
    rw [val, hc, if_pos (by omega), Nat.add_sub_cancel_left, BitVec.ofNat_toNat, BitVec.setWidth_eq]
  case isFalse hdigit =>
    have hc : (BitVec.ofNat 8 (0x32 + (v.toNat - 26))).toNat = 0x32 + (v.toNat - 26) := Nat.mod_eq_of_lt (by omega)
    rw [val, hc, if_neg (by omega), if_pos (by omega), Nat.add_sub_cancel_left, Nat.sub_add_cancel (by omega),
      BitVec.ofNat_toNat, BitVec.setWidth_eq]

theorem eq_alpha_of_val {c : Byte} {v : BitVec 5} (h : val c = some v) : c = alpha v := by
  unfold val at h
  split_ifs at h with hletter hdigit <;> cases h
  case pos.refl =>
    have hv : (BitVec.ofNat 5 (c.toNat - 0x41)).toNat = c.toNat - 0x41 := Nat.mod_eq_of_lt (by omega)
    rw [alpha, hv, if_pos (by omega), Nat.add_sub_cancel' hletter.1, BitVec.ofNat_toNat, BitVec.setWidth_eq]
  case pos.refl =>
    have hv : (BitVec.ofNat 5 (c.toNat - 0x32 + 26)).toNat = c.toNat - 0x32 + 26 := Nat.mod_eq_of_lt (by omega)
    rw [alpha, hv, if_neg (by omega), Nat.add_sub_cancel, Nat.add_sub_cancel' hdigit.1, BitVec.ofNat_toNat,
      BitVec.setWidth_eq]

/-- Settles O19: the table and the vector are computed, the inverse is taken over each of the two ranges of codes. -/
theorem alphabetTable : Obligations.AlphabetTable :=
  ⟨by decide, val_alpha, fun _ _ => eq_alpha_of_val, by decide, by decide⟩

/-! ## The classes -/

/-- The two ranges of symbol codes. -/
theorem isSymbol_iff {c : Byte} :
    isSymbol c = true ↔ (0x41 ≤ c.toNat ∧ c.toNat ≤ 0x5A) ∨ (0x32 ≤ c.toNat ∧ c.toNat ≤ 0x37) := by
  unfold isSymbol val
  split_ifs <;> simp_all

theorem isLower_iff {c : Byte} : isLower c = true ↔ 0x61 ≤ c.toNat ∧ c.toNat ≤ 0x7A := by simp [isLower]

theorem upperChar_of_isLower {c : Byte} (h : isLower c = true) : upperChar c = c - 0x20 := if_pos h

theorem upperChar_of_not_isLower {c : Byte} (h : isLower c = false) : upperChar c = c := if_neg (by simp [h])

/-- A lower-case letter folds to a symbol (R82). -/
theorem isSymbol_upperChar {c : Byte} (h : isLower c = true) : isSymbol (upperChar c) = true := by
  rw [upperChar_of_isLower h, isSymbol_iff]
  rw [isLower_iff] at h
  left
  bv_omega

theorem isLower_eq_false_of_isSymbol {c : Byte} (h : isSymbol c = true) : isLower c = false := by
  rw [isSymbol_iff] at h
  rw [← Bool.not_eq_true, isLower_iff]
  omega

/-- `TRIM_SET` holds no code but space that has another class, or that has none (R79, R53). -/
theorem inTrimSet_eq_false {P : Params} {c : Byte} (hspace : c ≠ 0x20)
    (h : isSymbol c = true ∨ isLower c = true ∨ isClassless c = true) : inTrimSet P c = false := by
  rw [← Bool.not_eq_true, inTrimSet_iff]
  rintro (hc | ⟨hsym, hlower, -, -, hclassless, -⟩)
  · exact hspace hc
  · simp [hsym, hlower, hclassless] at h

/-- The classes of R52 exclude one another and leave no code out: the three classes of one code each are tested at that
code, and `TRIM_SET` holds no symbol and no lower-case letter. -/
theorem count_classes (P : Params) (c : Byte) :
    [isSymbol c, isLower c, c == 0x2D, c == 0x20, isPad c, inTrimSet P c && c != 0x20,
      !isSymbol c && !isLower c && !isSep c && !isPad c && !inTrimSet P c].count true = 1 := by
  obtain rfl | hspace := eq_or_ne c 0x20
  · rfl
  obtain rfl | hdash := eq_or_ne c 0x2D
  · rfl
  obtain rfl | hpad := eq_or_ne c 0x3D
  · rfl
  simp only [isSep, isPad, bne, beq_false_of_ne hspace, beq_false_of_ne hdash, beq_false_of_ne hpad]
  rcases hsym : isSymbol c
  case true => rw [isLower_eq_false_of_isSymbol hsym, inTrimSet_eq_false hspace (.inl hsym)]; rfl
  rcases hlower : isLower c
  case true => rw [inTrimSet_eq_false hspace (.inr (.inl hlower))]; rfl
  cases inTrimSet P c <;> rfl

/-- The codes 0x80 to 0xFF are in none of the classes (R53). -/
theorem no_class_of_le {c : Byte} (P : Params) (h : 0x80 ≤ c.toNat) :
    isSymbol c = false ∧ isLower c = false ∧ isSep c = false ∧ isPad c = false ∧ inTrimSet P c = false := by
  have hspace : c ≠ 0x20 := by bv_omega
  have hdash : c ≠ 0x2D := by bv_omega
  have hpad : c ≠ 0x3D := by bv_omega
  refine ⟨?_, ?_, Bool.or_eq_false_iff.2 ⟨beq_false_of_ne hdash, beq_false_of_ne hspace⟩,
    beq_false_of_ne hpad, inTrimSet_eq_false hspace (.inr (.inr (decide_eq_true h)))⟩
  · rw [← Bool.not_eq_true, isSymbol_iff]; omega
  · rw [← Bool.not_eq_true, isLower_iff]; omega

/-- Settles O20: the count of the classes a code is in, the folding of a letter, and the range of R53. -/
theorem characterClasses : Obligations.CharacterClasses := by
  intro P c
  refine ⟨count_classes P c, fun h => ⟨upperChar_of_isLower h, isSymbol_upperChar h⟩, upperChar_of_not_isLower,
    fun h => ?_⟩
  obtain ⟨hsym, hlower, hsep, hpad, htrim⟩ := no_class_of_le P h
  simp only [hsym, hlower, hsep, hpad, htrim]
  rfl

end Sys2Proof.Machine
end

section
/-! PROOFS. The digits of a number in a base, and from them the Challenge (R54) and the PIN text (R56). -/

namespace Sys2Proof.Machine

/-! ## Digits -/

/-- The last `n` digits of `v` in a base, most significant first. -/
def lastDigits (base n v : Nat) : List Nat := (List.range n).map (fun i => v / base ^ (n - 1 - i) % base)

theorem lastDigits_succ (base n v : Nat) :
    lastDigits base (n + 1) v = lastDigits base n (v / base) ++ [v % base] := by
  have hdigit : ∀ i ∈ List.range n, v / base ^ (n + 1 - 1 - i) % base = v / base / base ^ (n - 1 - i) % base := by
    intro i hi
    have hexp : n + 1 - 1 - i = n - 1 - i + 1 := by have := List.mem_range.1 hi; omega
    rw [hexp, pow_succ', Nat.div_div_eq_div_mul]
  simp only [lastDigits, List.range_succ, List.map_append, List.map_cons, List.map_nil]
  rw [List.map_congr_left hdigit, Nat.add_sub_cancel, Nat.sub_self, pow_zero, Nat.div_one]

theorem numberOf_append_singleton (base : Nat) (ds : List Nat) (d : Nat) :
    numberOf base (ds ++ [d]) = base * numberOf base ds + d := by
  simp [numberOf]

/-- The digits read back as what `n` digits can hold of the number. -/
theorem numberOf_lastDigits (base n v : Nat) : numberOf base (lastDigits base n v) = v % base ^ n := by
  induction n generalizing v with
  | zero => simp [lastDigits, numberOf, Nat.mod_one]
  | succ n ih =>
    rw [lastDigits_succ, numberOf_append_singleton, ih, pow_succ', Nat.mod_mul, add_comm]

theorem getD_map_range (f : Nat → Byte) {i n : Nat} (hi : i < n) : ((List.range n).map f).getD i 0 = f i := by
  simp [hi]

/-! ## The Challenge -/

/-- Byte `i` of the Challenge, as a number. -/
theorem toNat_challengeByte (ctr : Time) {i : Nat} (hi : i < 8) :
    (ctr.extractLsb' (56 - 8 * i) 8).toNat = ctr.toNat / 256 ^ (7 - i) % 256 := by
  have hexp : 56 - 8 * i = 8 * (7 - i) := by omega
  rw [BitVec.extractLsb'_toNat, Nat.shiftRight_eq_div_pow, hexp, pow_mul]
  rfl

theorem challenge_getD_toNat (ctr : Time) {i : Nat} (hi : i < 8) :
    ((challenge ctr).getD i 0).toNat = ctr.toNat / 256 ^ (7 - i) % 256 := by
  rw [challenge, getD_map_range _ hi, toNat_challengeByte ctr hi]

theorem challenge_map_toNat (ctr : Time) : (challenge ctr).map (fun c => c.toNat) = lastDigits 256 8 ctr.toNat := by
  rw [challenge, List.map_map]
  exact List.map_congr_left fun i hi => toNat_challengeByte ctr (List.mem_range.1 hi)

/-- Settles O47: the bytes are the base-256 digits of the Counter, and eight of them hold the whole of it. -/
theorem challengeBigEndian : Obligations.ChallengeBigEndian := by
  refine ⟨fun ctr => ⟨challenge_length ctr, ?_, fun i => challenge_getD_toNat ctr⟩, by decide, by decide, by decide⟩
  rw [challenge_map_toNat, numberOf_lastDigits]
  exact Nat.mod_eq_of_lt ctr.isLt

/-! ## The PIN text -/

/-- The code of a decimal digit, as a number. -/
theorem toNat_digitCode (d : Nat) : (BitVec.ofNat 8 (0x30 + d % 10)).toNat = 0x30 + d % 10 :=
  Nat.mod_eq_of_lt (by omega)

theorem formatPin_getD_toNat (v : Nat) {n i : Nat} (hi : i < n) :
    ((formatPin v n).getD i 0).toNat = 0x30 + v / 10 ^ (n - 1 - i) % 10 := by
  rw [formatPin, getD_map_range _ hi, toNat_digitCode, pow10]

theorem mem_formatPin_range {v n : Nat} {c : Byte} (h : c ∈ formatPin v n) : 0x30 ≤ c.toNat ∧ c.toNat ≤ 0x39 := by
  obtain ⟨i, -, rfl⟩ := List.mem_map.1 h
  rw [toNat_digitCode]
  omega

theorem formatPin_map_digit (v n : Nat) : (formatPin v n).map (fun c => c.toNat - 0x30) = lastDigits 10 n v := by
  rw [formatPin, List.map_map]
  refine List.map_congr_left fun i _ => ?_
  rw [Function.comp_apply, toNat_digitCode, Nat.add_sub_cancel_left, pow10]

/-- Settles O54: the codes are those of the decimal digits, and `n` digits hold a value below `10^n`. -/
theorem pinFormat : Obligations.PinFormat := by
  refine ⟨fun v n hv => ⟨formatPin_length v n, fun _ => mem_formatPin_range, fun _ => formatPin_getD_toNat v, ?_⟩,
    by decide⟩
  rw [formatPin_map_digit, numberOf_lastDigits, Nat.mod_eq_of_lt hv]

end Sys2Proof.Machine
end

section
/-! PROOFS. How each operation can end, and what its response reads and reports (R48, R49, R57, R58). -/

namespace Sys2Proof.Machine

/-! ## The ports an operation reads -/

/-- Settles O40: the defaults are 0, 30 and 6, and both operations run on the bound values. -/
theorem defaultBinding : Obligations.DefaultBinding :=
  fun dp dt ds s => ⟨exec_totpgen dp dt ds s, exec_totpgenw dp dt ds s⟩

/-- A port whose flag is set is not read. -/
theorem bindParams_congr {now : Time} {dp dt ds : Bool} {r r' : Request} (hstart : ds = false → r.start = r'.start)
    (hstep : dt = false → r.step = r'.step) (hpin : dp = false → r.pinlen = r'.pinlen) :
    bindParams now dp dt ds r = bindParams now dp dt ds r' := by
  have hbind {α : Type} {flag : Bool} (dflt : α) {port port' : α} (h : flag = false → port = port') :
      (if flag then dflt else port) = if flag then dflt else port' := by
    cases flag with
    | false => exact h rfl
    | true => rfl
  simp only [bindParams, hbind _ hstart, hbind _ hstep, hbind _ hpin]

/-- Equal runs give equal responses. -/
theorem exec_resp_congr {i : Instr} {s s' : State}
    (h : opRun Config.params s.algok s.req i = opRun Config.params s'.algok s'.req i) :
    ∃ t t', exec i s = .next t ∧ exec i s' = .next t' ∧ t.resp = t'.resp :=
  ⟨_, _, exec_eq_complete_opRun i s, exec_eq_complete_opRun i s', by simp only [State.complete_resp, h]⟩

/-- Settles O13: the run of each operation is a function of the listed ports, and an illegal word's response is fixed. -/
theorem responseReadsListedPortsOnly : Obligations.ResponseReadsListedPortsOnly := by
  refine ⟨fun s s' hsrc => exec_resp_congr ?_, fun s s' hsrc => exec_resp_congr ?_,
    fun s s' dp dt ds hsrc hnow halgok hstart hstep hpin => exec_resp_congr ?_,
    fun s s' dp dt ds hsrc hnow halgok hstart hstep hpin => exec_resp_congr ?_,
    fun s s' r r' rest rest' e hp hp' hcmd hd =>
      ⟨_, _, step_request_illegal hp hd, step_request_illegal hp' (hcmd ▸ hd), rfl⟩⟩
  · simp only [opRun, hsrc]
  · simp only [opRun, hsrc]
  · simp only [opRun, hsrc, hnow, halgok, bindParams_congr hstart hstep hpin]
  · simp only [opRun, hsrc, hnow, halgok, bindParams_congr hstart hstep hpin]

/-! ## How an operation can end -/

theorem encodeRun_result (src : Buffer) :
    (encodeRun src).result = .error .inputTooLong ∨ ∃ text, (encodeRun src).result = .ok text := by
  unfold encodeRun
  split
  · exact .inl rfl
  · exact .inr ⟨_, rfl⟩

theorem decodeRun_result (P : Params) (src : Buffer) :
    (∃ c, dec P src.bytes = .error c ∧ (decodeRun P src).result = .error (.invalidCharacter c)) ∨
      ∃ bytes, (decodeRun P src).result = .ok bytes := by
  rcases h : dec P src.bytes with c | bytes
  · exact .inl ⟨c, rfl, decodeRun_result_of_error h⟩
  · exact .inr ⟨bytes, decodeRun_result_of_ok h⟩

/-- The results a generator operation on the source `text` can end with (R57, R129): a PIN, or one of the errors of its
steps. An invalid character is the one the decoder stops on. -/
inductive GeneratorResult (P : Params) (text : List Byte) : Result → Prop
  | pin (digits : List Byte) : GeneratorResult P text (.ok digits)
  | unsupportedAlgorithm : GeneratorResult P text (.error .unsupportedAlgorithm)
  | invalidPinLength : GeneratorResult P text (.error .invalidPinLength)
  | invalidTimeStep : GeneratorResult P text (.error .invalidTimeStep)
  | counterOverflow : GeneratorResult P text (.error .counterOverflow)
  | invalidCharacter {c : Byte} (h : dec P text = .error c) : GeneratorResult P text (.error (.invalidCharacter c))
  | digestTooShort : GeneratorResult P text (.error .digestTooShort)

section Generator

variable {P : Params} {text : List Byte}

theorem genPin_generatorResult (g : GenRegs) (codec : CodecRegs) (n : Nat) (dig : List Byte) :
    GeneratorResult P text (genPin g codec n dig).result := by
  rw [genPin_result]
  split
  · exact .pin _
  · exact .digestTooShort

theorem genDigest_generatorResult (g : GenRegs) (n : Nat) (chal : List Byte) :
    GeneratorResult P text (genDigest P g n chal text).result := by
  unfold genDigest
  split
  · exact .invalidCharacter ‹_›
  · exact genPin_generatorResult _ _ n _

theorem genTime_generatorResult (b : Bound) : GeneratorResult P text (genTime P b text).result := by
  unfold genTime
  split
  · exact .counterOverflow
  · exact genDigest_generatorResult _ _ _

theorem genCheck_generatorResult {algok : Bool} {b : Bound} {e : Error} (h : genCheck algok b = some e) :
    GeneratorResult P text (.error e) := by
  unfold genCheck at h
  split_ifs at h <;> cases h
  · exact .unsupportedAlgorithm
  · exact .invalidPinLength
  · exact .invalidTimeStep

theorem generateRun_generatorResult (algok : Bool) (b : Bound) :
    GeneratorResult P text (generateRun P algok b text).result := by
  unfold generateRun
  split
  · exact genCheck_generatorResult ‹_›
  · exact genTime_generatorResult b

end Generator

/-- The run of both generator operations ends as R57 lists. -/
theorem exec_generator_result {dp dt ds : Bool} {s t : State}
    (h : exec (.totpgen dp dt ds) s = .next t ∨ exec (.totpgenw dp dt ds) s = .next t) :
    ∃ result, GeneratorResult Config.params s.req.src.bytes result ∧ t.resp = Response.of result := by
  rw [exec_eq_next_iff, exec_eq_next_iff] at h
  obtain rfl | rfl := h
  · exact ⟨_, generateRun_generatorResult _ _, rfl⟩
  · exact ⟨_, generateRun_generatorResult _ _, rfl⟩

/-! ## The statuses (R57) -/

theorem Status.code_le (x : Status) : x.code.toNat ≤ 8 := by cases x <;> decide

theorem exec_b32enc_status {s t : State} (h : exec .b32enc s = .next t) :
    t.resp.status = .ok ∨ t.resp.status = .inputTooLong := by
  rw [exec_eq_next_iff] at h
  subst h
  obtain hresult | ⟨text, hresult⟩ := encodeRun_result s.req.src
  · exact .inr (by simp [opRun, hresult, Error.status])
  · exact .inl (by simp [opRun, hresult])

theorem exec_b32dec_status {s t : State} (h : exec .b32dec s = .next t) :
    t.resp.status = .ok ∨ t.resp.status = .invalidCharacter := by
  rw [exec_eq_next_iff] at h
  subst h
  obtain ⟨c, -, hresult⟩ | ⟨bytes, hresult⟩ := decodeRun_result Config.params s.req.src
  · exact .inr (by simp [opRun, hresult, Error.status])
  · exact .inl (by simp [opRun, hresult])

/-- Neither the encoder's error nor the illegal command is a generator's. -/
theorem exec_generator_status {dp dt ds : Bool} {s t : State}
    (h : exec (.totpgen dp dt ds) s = .next t ∨ exec (.totpgenw dp dt ds) s = .next t) :
    t.resp.status ≠ .inputTooLong ∧ t.resp.status ≠ .illegalCommand := by
  obtain ⟨result, hresult, hresp⟩ := exec_generator_result h
  rw [hresp]
  cases hresult <;> exact ⟨nofun, nofun⟩

/-- Settles O59: the codes by computation, and each operation's statuses from the results it can end with. -/
theorem statusCodes : Obligations.StatusCodes :=
  ⟨by decide, Status.code_le, fun _ _ => exec_b32enc_status, fun _ _ => exec_b32dec_status,
    fun _ _ _ _ _ => exec_generator_status⟩

/-! ## The offending character (R58, R127) -/

theorem generateRun_invalidCharacter {P : Params} {algok : Bool} {b : Bound} {text : List Byte} {c : Byte}
    (h : (generateRun P algok b text).result = .error (.invalidCharacter c)) : dec P text = .error c := by
  have hresult : GeneratorResult P text (.error (.invalidCharacter c)) := h ▸ generateRun_generatorResult algok b
  cases hresult with
  | invalidCharacter hdec => exact hdec

/-- An operation that reports `InvalidCharacter` reports the code the decoder stopped on. -/
theorem opRun_invalidCharacter {P : Params} {algok : Bool} {r : Request} {i : Instr} {c : Byte}
    (h : (opRun P algok r i).result = .error (.invalidCharacter c)) : dec P r.src.bytes = .error c := by
  cases i with
  | b32enc =>
    obtain hresult | ⟨text, hresult⟩ := encodeRun_result r.src <;> cases hresult.symm.trans h
  | b32dec =>
    obtain ⟨c', hdec, hresult⟩ | ⟨bytes, hresult⟩ := decodeRun_result P r.src <;> cases hresult.symm.trans h
    exact hdec
  | totpgen dp dt ds => exact generateRun_invalidCharacter h
  | totpgenw dp dt ds => exact generateRun_invalidCharacter h

/-- The response shows `InvalidCharacter` for that result only, with its character. -/
theorem Response.of_status_invalidCharacter {result : Result} (h : (Response.of result).status = .invalidCharacter) :
    result = .error (.invalidCharacter (Response.of result).errchar) := by
  cases result with
  | ok bytes => cases h
  | error e => cases e <;> cases h; rfl

/-- Settles O58: every response is well formed, and `ERRCHAR` of `InvalidCharacter` is the decoder's. -/
theorem errorResponses : Obligations.ErrorResponses := by
  intro i s t h
  obtain ⟨-, -, -, hres, hchar⟩ := exec_inRange h
  refine ⟨fun hok => hchar (by simp [hok]), fun herr => ?_, hchar, fun hinvalid => ?_⟩
  · rw [hres herr]
    exact ⟨rfl, rfl⟩
  · rw [exec_eq_next_iff] at h
    subst h
    exact opRun_invalidCharacter (Response.of_status_invalidCharacter hinvalid)

end Sys2Proof.Machine
end

section
/-! PROOFS. Bit streams: a stretch of a stream that zeros extend (R68, R86), its number, and the bits a value and a byte
sequence are made of (R32). -/

namespace Sys2Proof.Machine

/-! ## A stretch of a stream -/

/-- `n` bits of a stream from bit `k` up; the stream is extended with zeros. -/
def streamBits (s : List Bool) (k n : Nat) : List Bool := (List.range n).map (fun i => s.getD (k + i) false)

@[simp] theorem streamBits_length (s : List Bool) (k n : Nat) : (streamBits s k n).length = n := by
  simp [streamBits]

/-- A stretch taken in two pieces. -/
theorem streamBits_add (s : List Bool) (k m n : Nat) :
    streamBits s k (m + n) = streamBits s k m ++ streamBits s (k + m) n := by
  simp [streamBits, List.range_add, Nat.add_assoc]

theorem streamBits_of_le {s : List Bool} {k n : Nat} (h : k + n ≤ s.length) :
    streamBits s k n = (s.drop k).take n := by
  refine List.ext_getElem (by simp; omega) fun i hi _ => ?_
  have hlt : k + i < s.length := by rw [streamBits_length] at hi; omega
  simp [streamBits, List.getElem?_eq_getElem hlt]

theorem streamBits_of_length_le {s : List Bool} {k : Nat} (h : s.length ≤ k) (n : Nat) :
    streamBits s k n = List.replicate n false :=
  List.eq_replicate_iff.2 ⟨streamBits_length s k n, fun x hx => by
    obtain ⟨i, -, rfl⟩ := List.mem_map.1 hx
    exact List.getD_eq_default _ _ (by omega)⟩

/-- The rest of a stream, with the zeros after it. -/
theorem streamBits_zeros {s : List Bool} {k : Nat} (h : k ≤ s.length) (z : Nat) :
    streamBits s k (s.length - k + z) = s.drop k ++ List.replicate z false := by
  rw [streamBits_add, streamBits_of_le (by omega), streamBits_of_length_le (by omega),
    List.take_of_length_le (by simp)]

/-- A stretch and the rest of the stream after it. -/
theorem streamBits_append_drop {s : List Bool} {k n : Nat} (h : k + n ≤ s.length) :
    streamBits s k n ++ s.drop (k + n) = s.drop k := by
  rw [streamBits_of_le h, ← List.drop_drop, List.take_append_drop]

/-- A stretch does not reach what follows the stream. -/
theorem streamBits_append {s : List Bool} {k n : Nat} (h : k + n ≤ s.length) (t : List Bool) :
    streamBits (s ++ t) k n = streamBits s k n := by
  rw [streamBits_of_le h, streamBits_of_le (by simp; omega), List.drop_append_of_le_length (by omega),
    List.take_append_of_le_length (by simp; omega)]

theorem streamBits_drop (s : List Bool) (k j n : Nat) : streamBits (s.drop k) j n = streamBits s (k + j) n := by
  simp [streamBits, Nat.add_assoc]

/-! ## Numbers of streams -/

theorem natOfBits_eq_numberOf (l : List Bool) : natOfBits l = numberOf 2 (l.map Bool.toNat) := by
  rw [natOfBits, numberOf, List.foldl_map]

theorem natOfBits_cons (x : Bool) (l : List Bool) : natOfBits (x :: l) = x.toNat * 2 ^ l.length + natOfBits l := by
  rw [← List.singleton_append, natOfBits_append]
  simp [natOfBits]

@[simp] theorem natOfBits_replicate_false (n : Nat) : natOfBits (List.replicate n false) = 0 := by
  induction n with
  | zero => rfl
  | succ n ih => rw [List.replicate_succ, natOfBits_cons, ih]; simp

/-- Streams of one length are told apart by their numbers. -/
theorem natOfBits_inj {a b : List Bool} (hlen : a.length = b.length) (h : natOfBits a = natOfBits b) : a = b := by
  induction a generalizing b with
  | nil => exact (List.length_eq_zero_iff.1 hlen.symm).symm
  | cons x xs ih =>
    obtain _ | ⟨y, ys⟩ := b
    · simp at hlen
    have hxs := natOfBits_lt xs
    have hys := natOfBits_lt ys
    rw [List.length_cons, List.length_cons, Nat.succ_inj] at hlen
    rw [natOfBits_cons, natOfBits_cons, hlen] at h
    rw [hlen] at hxs
    have hxy : x = y := by cases x <;> cases y <;> simp at h ⊢ <;> omega
    subst hxy
    rw [ih hlen (Nat.add_left_cancel h)]

/-- The number of a stretch, by division from that of a longer one. -/
theorem natOfBits_streamBits (s : List Bool) (k w r : Nat) :
    natOfBits (streamBits s k w) = natOfBits (streamBits s 0 (k + w + r)) / 2 ^ r % 2 ^ w := by
  have hw := natOfBits_lt (streamBits s k w)
  have hr := natOfBits_lt (streamBits s (k + w) r)
  rw [streamBits_length] at hw hr
  rw [streamBits_add, streamBits_add, natOfBits_append, natOfBits_append, streamBits_length, streamBits_length,
    Nat.zero_add, Nat.zero_add, mul_comm, Nat.mul_add_div (by positivity), Nat.div_eq_of_lt hr, Nat.add_zero,
    Nat.mul_add_mod_of_lt hw]

/-! ## The bits of a value -/

/-- The bits of a value read back as the value. -/
@[simp] theorem natOfBits_bitsOf {w : Nat} (v : BitVec w) : natOfBits (bitsOf v) = v.toNat := by
  have hdigits : (bitsOf v).map Bool.toNat = lastDigits 2 w v.toNat := by
    rw [bitsOf, List.map_map]
    refine List.map_congr_left fun k _ => ?_
    rw [Function.comp_apply, ← BitVec.testBit_toNat, Nat.toNat_testBit]
  rw [natOfBits_eq_numberOf, hdigits, numberOf_lastDigits, Nat.mod_eq_of_lt v.isLt]

theorem bitsOf_inj {w : Nat} {u v : BitVec w} (h : bitsOf u = bitsOf v) : u = v :=
  BitVec.eq_of_toNat_eq (by rw [← natOfBits_bitsOf, h, natOfBits_bitsOf])

/-- A group holds its stretch of the stream. -/
theorem toNat_groupAt (s : List Bool) (w k : Nat) : (groupAt s w k).toNat = natOfBits (streamBits s k w) := by
  have h := natOfBits_lt (streamBits s k w)
  rw [streamBits_length] at h
  exact Nat.mod_eq_of_lt h

theorem bitsOf_groupAt (s : List Bool) (w k : Nat) : bitsOf (groupAt s w k) = streamBits s k w :=
  natOfBits_inj (by simp) (by rw [natOfBits_bitsOf, toNat_groupAt])

theorem groupAt_congr {s t : List Bool} {w j k : Nat} (h : streamBits s j w = streamBits t k w) :
    groupAt s w j = groupAt t w k :=
  bitsOf_inj (by rw [bitsOf_groupAt, bitsOf_groupAt, h])

/-! ## The stream of a byte sequence (R32) -/

@[simp] theorem byteStream_nil : byteStream [] = [] := rfl

@[simp] theorem byteStream_cons (b : Byte) (bytes : List Byte) :
    byteStream (b :: bytes) = bitsOf b ++ byteStream bytes :=
  List.flatMap_cons

theorem byteStream_append (x y : List Byte) : byteStream (x ++ y) = byteStream x ++ byteStream y :=
  List.flatMap_append

theorem byteStream_take {bytes : List Byte} {i : Nat} (hi : i ≤ bytes.length) :
    byteStream (bytes.take i) = (byteStream bytes).take (8 * i) := by
  conv_rhs => rw [← List.take_append_drop i bytes, byteStream_append]
  rw [List.take_left' (by simp [hi])]

theorem byteStream_inj {x y : List Byte} (h : byteStream x = byteStream y) : x = y := by
  induction x generalizing y with
  | nil =>
    have hlen := congrArg List.length h
    rw [byteStream_length, byteStream_length] at hlen
    exact (List.length_eq_zero_iff.1 (by simpa using hlen.symm)).symm
  | cons b bs ih =>
    obtain _ | ⟨c, cs⟩ := y
    · have hlen := congrArg List.length h
      simp at hlen
    rw [byteStream_cons, byteStream_cons] at h
    obtain ⟨hhead, htail⟩ := List.append_inj h (by simp)
    rw [bitsOf_inj hhead, ih htail]

/-- The bytes are the base-256 digits of the number of their stream. -/
theorem natOfBits_byteStream (bytes : List Byte) :
    natOfBits (byteStream bytes) = numberOf 256 (bytes.map (fun c => c.toNat)) := by
  induction bytes using List.reverseRecOn with
  | nil => rfl
  | append_singleton bs b ih =>
    rw [byteStream_append, natOfBits_append, ih, List.map_append, List.map_singleton, numberOf_append_singleton,
      byteStream_cons, byteStream_nil, List.append_nil, natOfBits_bitsOf, bitsOf_length, mul_comm]
    rfl

/-- Bit `k` of the stream is bit `7 - k mod 8` of byte `k / 8`. -/
theorem byteStream_getD (bytes : List Byte) (k : Nat) :
    (byteStream bytes).getD k false = (bytes.getD (k / 8) 0).getLsbD (7 - k % 8) := by
  induction bytes generalizing k with
  | nil => simp
  | cons b bs ih =>
    rw [byteStream_cons]
    obtain hk | hk := Nat.lt_or_ge k 8
    · rw [List.getD_append _ _ _ _ (by simpa using hk), Nat.div_eq_of_lt hk, Nat.mod_eq_of_lt hk, List.getD_cons_zero]
      simp [bitsOf, hk]
    · rw [List.getD_append_right _ _ _ _ (by simpa using hk), bitsOf_length, ih,
        show k / 8 = (k - 8) / 8 + 1 by omega, List.getD_cons_succ, show k % 8 = (k - 8) % 8 by omega]

theorem sourceBit_eq (b : Buffer) (k : Nat) : sourceBit b k = ((byteStream b.bytes).getD k false).toNat := by
  rw [sourceBit]
  split
  · rw [byteStream_getD, ← BitVec.testBit_toNat, Nat.toNat_testBit, Buffer.bytes, Buffer.memRead,
      getD_map_range _ (by omega), Nat.zero_add]
  · rw [List.getD_eq_default _ _ (by simp; omega), Bool.toNat_false]

end Sys2Proof.Machine
end

section
/-! PROOFS. The encoder: its run (R65, R66), its text in terms of the source's bit stream (R68, R69, R70, R75). -/

namespace Sys2Proof.Machine

/-! ## The run -/

theorem Config.encLimit_eq : Config.encLimit = 2 ^ 28 := rfl

theorem exec_b32enc_of_encLimit_le {s : State} (h : 2 ^ 28 ≤ s.req.src.len) :
    exec .b32enc s = .next (s.complete ⟨CodecRegs.zero, GenRegs.zero, .error .inputTooLong⟩) := by
  rw [exec_b32enc, encodeRun, if_pos (Config.encLimit_eq.trans_le h)]

theorem exec_b32enc_of_lt_encLimit {s : State} (h : s.req.src.len < 2 ^ 28) :
    exec .b32enc s =
      .next (s.complete ⟨(encStream s.req.src.bytes).1, GenRegs.zero, .ok (enc s.req.src.bytes)⟩) := by
  rw [exec_b32enc, encodeRun, if_neg (Config.encLimit_eq ▸ Nat.not_le.2 h)]

/-- The bytes in the response are those of the text, or none. -/
theorem exec_b32enc_bytes {s t : State} (h : exec .b32enc s = .next t) :
    t.resp.res.bytes = [] ∨ t.resp.res.bytes = enc s.req.src.bytes := by
  obtain hlen | hlen := Nat.lt_or_ge s.req.src.len (2 ^ 28)
  · rw [exec_b32enc_of_lt_encLimit hlen] at h
    cases h
    exact .inr (Buffer.bytes_ofBytes _)
  · rw [exec_b32enc_of_encLimit_le hlen] at h
    cases h
    exact .inl rfl

/-- Settles O22: the guard decides before the bytes are looked at. -/
theorem encodeLengthGuard : Obligations.EncodeLengthGuard := by
  refine fun s => ⟨fun hlen => ⟨_, exec_b32enc_of_encLimit_le hlen, rfl, rfl, rfl, rfl, fun cells => ?_⟩,
    fun hlen => ⟨_, exec_b32enc_of_lt_encLimit hlen, rfl⟩⟩
  exact ⟨_, exec_b32enc_of_encLimit_le (s := { s with req := { s.req with src := ⟨cells, _⟩ } }) hlen, rfl⟩

/-! ## Lengths (R69) -/

/-- The length of the text by the residue of the source's. -/
theorem encLen_of_residue (k : Nat) {r : Nat} (hr : r < 5) : encLen (5 * k + r) = 8 * k + [0, 2, 4, 5, 7].getD r 0 := by
  unfold encLen
  interval_cases r <;> simp <;> omega

/-- The text holds the whole source, and less than one symbol more. -/
theorem encLen_bounds (n : Nat) : 8 * n ≤ 5 * encLen n ∧ 5 * encLen n < 8 * n + 5 := by
  unfold encLen
  omega

theorem encLen_inj {m n : Nat} (h : encLen m = encLen n) : m = n := by
  have hm := encLen_bounds m
  have hn := encLen_bounds n
  omega

/-- Settles O24: the length is `ceil(8n / 5)`, taken by residue and within its bounds. -/
theorem encodeLengths : Obligations.EncodeLengths := by
  refine ⟨fun bytes k r hr hlen => ?_, fun bytes => ?_, by decide⟩
  · rw [enc_length, hlen, encLen_of_residue k hr]
  · obtain ⟨hlow, hhigh⟩ := encLen_bounds bytes.length
    rw [enc_length]
    omega

/-- Settles O23: the text of no bytes has no symbol. -/
theorem encodeEmpty : Obligations.EncodeEmpty := by
  intro s hlen
  refine ⟨_, exec_b32enc_of_lt_encLimit (by omega), rfl, ?_⟩
  change (enc s.req.src.bytes).length = 0
  rw [enc_length, Buffer.bytes_length, hlen]
  rfl

/-! ## The alphabet (R70) -/

@[simp] theorem isSymbol_alpha (v : BitVec 5) : isSymbol (alpha v) = true := by
  rw [isSymbol, val_alpha, Option.isSome_some]

@[simp] theorem symbolValue_alpha (v : BitVec 5) : symbolValue (alpha v) = v.toNat := by
  rw [symbolValue, val_alpha, Option.getD_some]

/-- A symbol is neither `'='` nor a separator. -/
theorem isPad_isSep_eq_false_of_isSymbol {c : Byte} (h : isSymbol c = true) : isPad c = false ∧ isSep c = false := by
  have hpad : c ≠ 0x3D := by rintro rfl; cases h
  have hdash : c ≠ 0x2D := by rintro rfl; cases h
  have hspace : c ≠ 0x20 := by rintro rfl; cases h
  exact ⟨beq_false_of_ne hpad, Bool.or_eq_false_iff.2 ⟨beq_false_of_ne hdash, beq_false_of_ne hspace⟩⟩

theorem exists_alpha_of_mem_enc {bytes : List Byte} {c : Byte} (h : c ∈ enc bytes) : ∃ v, c = alpha v := by
  obtain ⟨j, -, rfl⟩ := List.mem_map.1 h
  exact ⟨_, rfl⟩

/-- Settles O25: every byte delivered is `ALPHA` of a value, and a symbol has no other class. -/
theorem encodeAlphabetOnly : Obligations.EncodeAlphabetOnly := by
  intro s t h c hc
  obtain hnone | htext := exec_b32enc_bytes h
  · rw [hnone] at hc
    cases hc
  rw [htext] at hc
  obtain ⟨v, rfl⟩ := exists_alpha_of_mem_enc hc
  obtain ⟨hpad, hsep⟩ := isPad_isSep_eq_false_of_isSymbol (isSymbol_alpha v)
  exact ⟨⟨v, rfl⟩, hpad, hsep, isLower_eq_false_of_isSymbol (isSymbol_alpha v)⟩

/-! ## The text by its symbols (R68) -/

/-- The first `q` symbols a bit stream encodes to. -/
def symbolsOf (s : List Bool) (q : Nat) : List Byte := (List.range q).map (fun j => alpha (groupAt s 5 (5 * j)))

theorem enc_eq_symbolsOf (bytes : List Byte) : enc bytes = symbolsOf (byteStream bytes) (encLen bytes.length) := rfl

@[simp] theorem symbolsOf_length (s : List Bool) (q : Nat) : (symbolsOf s q).length = q := by simp [symbolsOf]

theorem symbolsOf_succ (s : List Bool) (q : Nat) :
    symbolsOf s (q + 1) = symbolsOf s q ++ [alpha (groupAt s 5 (5 * q))] := by
  simp [symbolsOf, List.range_succ]

theorem symbolsOf_take (s : List Bool) {q m : Nat} (h : q ≤ m) : (symbolsOf s m).take q = symbolsOf s q := by
  rw [symbolsOf, ← List.map_take, List.take_range, Nat.min_eq_left h, symbolsOf]

/-- Symbols that lie within a stream do not change when it goes on. -/
theorem symbolsOf_append {s : List Bool} {q : Nat} (h : 5 * q ≤ s.length) (t : List Bool) :
    symbolsOf (s ++ t) q = symbolsOf s q := by
  refine List.map_congr_left fun j hj => ?_
  have hj := List.mem_range.1 hj
  rw [groupAt_congr (streamBits_append (by omega) t)]

theorem symbolsOf_add (s : List Bool) (p q : Nat) :
    symbolsOf s (p + q) = symbolsOf s p ++ symbolsOf (s.drop (5 * p)) q := by
  rw [symbolsOf, List.range_add, List.map_append, List.map_map]
  refine congrArg (symbolsOf s p ++ ·) (List.map_congr_left fun j _ => ?_)
  rw [Function.comp_apply, Nat.mul_add, groupAt_congr (streamBits_drop s _ _ _)]

/-- Encoding distributes over a split of the source at a multiple of 5 bytes. -/
theorem enc_append {x : List Byte} (hx : x.length % 5 = 0) (y : List Byte) : enc (x ++ y) = enc x ++ enc y := by
  have hbits : 5 * encLen x.length = (byteStream x).length := by rw [byteStream_length, encLen]; omega
  have hlen : encLen (x ++ y).length = encLen x.length + encLen y.length := by
    simp only [encLen, List.length_append]
    omega
  rw [enc_eq_symbolsOf, hlen, byteStream_append, symbolsOf_add, symbolsOf_append hbits.le, List.drop_left' hbits.symm,
    ← enc_eq_symbolsOf, ← enc_eq_symbolsOf]

/-! ## The text as a number (R68, R75) -/

/-- The symbols of a text carry the stream they were made from. -/
theorem symbolStream_symbolsOf (s : List Bool) (q : Nat) : symbolStream (symbolsOf s q) = streamBits s 0 (5 * q) := by
  induction q with
  | zero => rfl
  | succ q ih =>
    rw [symbolsOf_succ, symbolStream, List.flatMap_append, ← symbolStream, ih, List.flatMap_singleton, val_alpha,
      Option.getD_some, bitsOf_groupAt, Nat.mul_succ, streamBits_add, Nat.zero_add]

/-- The stream of the text is that of the source and its padding zeros. -/
theorem symbolStream_enc (bytes : List Byte) :
    symbolStream (enc bytes) =
      byteStream bytes ++ List.replicate (5 * encLen bytes.length - 8 * bytes.length) false := by
  obtain ⟨hlow, -⟩ := encLen_bounds bytes.length
  have hsplit : 5 * encLen bytes.length =
      (byteStream bytes).length - 0 + (5 * encLen bytes.length - 8 * bytes.length) := by
    rw [byteStream_length]; omega
  rw [enc_eq_symbolsOf, symbolStream_symbolsOf, hsplit, streamBits_zeros (Nat.zero_le _), List.drop_zero,
    byteStream_length, Nat.sub_zero, Nat.add_sub_cancel_left]

/-- Settles O27: the text gives the source's length, and then its stream. -/
theorem encodeInjective : Obligations.EncodeInjective := by
  intro x y h
  have hlen : x.length = y.length := encLen_inj (by rw [← enc_length, h, enc_length])
  have hstream := congrArg symbolStream h
  rw [symbolStream_enc, symbolStream_enc] at hstream
  exact byteStream_inj (List.append_inj_left hstream (by simp [hlen]))

/-- Symbol `j` of the text is a base-32 digit of the source's number with its padding zeros. -/
theorem toNat_groupAt_byteStream (bytes : List Byte) {j : Nat} (hj : j < encLen bytes.length) :
    (groupAt (byteStream bytes) 5 (5 * j)).toNat =
      natOfBits (byteStream bytes) * 2 ^ (5 * encLen bytes.length - 8 * bytes.length) /
        32 ^ (encLen bytes.length - 1 - j) % 32 := by
  have hsplit : 5 * encLen bytes.length = 5 * j + 5 + 5 * (encLen bytes.length - 1 - j) := by omega
  have hnumber := congrArg natOfBits (symbolStream_enc bytes)
  rw [enc_eq_symbolsOf, symbolStream_symbolsOf, natOfBits_append, List.length_replicate, natOfBits_replicate_false,
    Nat.add_zero, hsplit] at hnumber
  rw [toNat_groupAt, natOfBits_streamBits, hnumber, pow_mul, ← hsplit]
  rfl

/-- Settles O28: the last symbol is the lowest digit of a number that ends in the padding zeros. -/
theorem encodeSplits : Obligations.EncodeSplits := by
  refine ⟨fun x c hc => ?_, fun x y hx => enc_append hx y⟩
  obtain ⟨-, hhigh⟩ := encLen_bounds x.length
  rw [enc_length]
  rcases hm : encLen x.length with _ | m
  case zero => rw [enc_eq_symbolsOf, hm] at hc; cases hc
  case succ =>
    have hdigit := toNat_groupAt_byteStream x (j := m) (by omega)
    rw [enc_eq_symbolsOf, hm, symbolsOf_succ, List.getLast?_concat, Option.some.injEq] at hc
    rw [hm, Nat.add_sub_cancel, Nat.sub_self, pow_zero, Nat.div_one] at hdigit
    rw [← hc, symbolValue_alpha, hdigit, Nat.mod_mod_of_dvd, Nat.mul_mod_left]
    exact pow_dvd_pow 2 (m := _) (n := 5) (by omega)

/-- A group of 5 bits, from its bits. -/
theorem toNat_groupAt_five (s : List Bool) (k : Nat) :
    (groupAt s 5 k).toNat =
      16 * (s.getD k false).toNat + 8 * (s.getD (k + 1) false).toNat + 4 * (s.getD (k + 2) false).toNat +
        2 * (s.getD (k + 3) false).toNat + (s.getD (k + 4) false).toNat := by
  have hbits : streamBits s k 5 =
      [s.getD k false, s.getD (k + 1) false, s.getD (k + 2) false, s.getD (k + 3) false, s.getD (k + 4) false] := rfl
  rw [toNat_groupAt, hbits]
  simp only [natOfBits, List.foldl_cons, List.foldl_nil]
  omega

/-- The number of padding zeros, by the residue of the source's length. -/
theorem padding_eq (n : Nat) : 5 * encLen n - 8 * n = [0, 2, 4, 1, 3].getD (n % 5) 0 := by
  have hr := Nat.mod_lt n (show 0 < 5 by decide)
  unfold encLen
  generalize hn : n % 5 = r at hr ⊢
  interval_cases r <;> simp <;> omega

/-- Settles O21: the delivered text is `Enc` of the source, each symbol read both as five bits and as a digit. -/
theorem encodeResult : Obligations.EncodeResult := by
  intro s hlen
  refine ⟨padding_eq _, _, exec_b32enc_of_lt_encLimit hlen, rfl, rfl, ?_, fun j hj => ?_⟩
  · simp [encLen]
  change j < encLen s.req.src.len at hj
  have hread : (enc s.req.src.bytes).getD j 0 = alpha (groupAt (byteStream s.req.src.bytes) 5 (5 * j)) :=
    getD_map_range _ (by rwa [Buffer.bytes_length])
  have hbits := toNat_groupAt_five (byteStream s.req.src.bytes) (5 * j)
  have hdigit := toNat_groupAt_byteStream s.req.src.bytes (j := j) (by rwa [Buffer.bytes_length])
  rw [Buffer.bytes_length, natOfBits_byteStream] at hdigit
  simp only [sourceBit_eq, ← hbits]
  refine ⟨?_, hdigit⟩
  rw [State.complete_resp, Response.of_ok, Response.return_res, Buffer.read_ofBytes, hread, BitVec.ofNat_toNat,
    BitVec.setWidth_eq]

end Sys2Proof.Machine
end

section
/-! PROOFS. The streaming encoder (R71): the rule's invariant, kept by each turn of its loops (R72). -/

namespace Sys2Proof.Machine

/-- The mask of the encoder and the decoder keeps the `n` lowest bits of `ACC`. -/
theorem toNat_and_lowMask (acc : BitVec 12) {n : Nat} (hn : n ≤ 12) :
    (acc &&& BitVec.ofNat 12 (2 ^ n - 1)).toNat = acc.toNat % 2 ^ n := by
  have hmask : 2 ^ n - 1 < 2 ^ 12 := (Nat.sub_lt (by positivity) one_pos).trans_le (Nat.pow_le_pow_right (by decide) hn)
  rw [BitVec.toNat_and, BitVec.toNat_ofNat, Nat.mod_eq_of_lt hmask, Nat.and_two_pow_sub_one_eq_mod]

/-- The rule's invariant with the stream `s` taken in and `q` symbols of it put out: `CNT` and `ACC` are the bits
held. -/
structure EncHolds (s : List Bool) (q : Nat) (r : CodecRegs) (out : List Byte) : Prop where
  out_eq : out = symbolsOf s q
  cnt_eq : 5 * q + r.cnt.toNat = s.length
  acc_eq : r.acc.toNat = natOfBits (s.drop (5 * q))

theorem EncHolds.zero : EncHolds [] 0 CodecRegs.zero [] := ⟨rfl, rfl, rfl⟩

section Turn

variable {s : List Bool} {q : Nat} {r : CodecRegs} {out : List Byte}

theorem EncHolds.acc_lt (h : EncHolds s q r out) : r.acc.toNat < 2 ^ r.cnt.toNat := by
  have hlt := natOfBits_lt (s.drop (5 * q))
  rwa [← h.acc_eq, List.length_drop, ← h.cnt_eq, Nat.add_sub_cancel_left] at hlt

/-- A byte taken in is appended to the bits held. -/
theorem EncHolds.take (h : EncHolds s q r out) (hcnt : r.cnt.toNat ≤ 4) (b : Byte) :
    EncHolds (s ++ bitsOf b) q (encTake r b) out := by
  have hle : 5 * q ≤ s.length := (Nat.le_add_right _ _).trans_eq h.cnt_eq
  have hadd : (r.cnt + 8).toNat = r.cnt.toNat + 8 := by
    rw [BitVec.toNat_add]
    exact Nat.mod_eq_of_lt (by simp; omega)
  have hacc : r.acc.toNat < 2 ^ 4 := h.acc_lt.trans_le (Nat.pow_le_pow_right (by decide) hcnt)
  refine ⟨?_, ?_, ?_⟩
  · rw [symbolsOf_append hle, h.out_eq]
  · rw [List.length_append, bitsOf_length, ← h.cnt_eq, encTake, hadd, Nat.add_assoc]
  · rw [List.drop_append_of_le_length hle, natOfBits_append, ← h.acc_eq, natOfBits_bitsOf, bitsOf_length, encTake,
      BitVec.toNat_or, BitVec.toNat_shiftLeft, BitVec.toNat_setWidth,
      Nat.mod_eq_of_lt (by rw [Nat.shiftLeft_eq]; omega), Nat.mod_eq_of_lt (by omega),
      ← Nat.shiftLeft_add_eq_or_of_lt b.isLt, Nat.shiftLeft_eq]

/-- A turn of the `while` puts out the 5 oldest bits held and keeps the others. -/
theorem EncHolds.emit (h : EncHolds s q r out) (hcnt : 5 ≤ r.cnt.toNat) :
    EncHolds s (q + 1) (encEmit r out).1 (encEmit r out).2 := by
  have hlen := h.cnt_eq
  have hsub : (r.cnt - 5).toNat = r.cnt.toNat - 5 := BitVec.toNat_sub_of_le (BitVec.le_def.2 hcnt)
  have hkept : (s.drop (5 * q + 5)).length = r.cnt.toNat - 5 := by rw [List.length_drop]; omega
  have hlt := natOfBits_lt (s.drop (5 * q + 5))
  rw [hkept] at hlt
  have hheld : r.acc.toNat =
      (groupAt s 5 (5 * q)).toNat * 2 ^ (r.cnt.toNat - 5) + natOfBits (s.drop (5 * q + 5)) := by
    rw [h.acc_eq, ← streamBits_append_drop (n := 5) (by omega), natOfBits_append, hkept, toNat_groupAt]
  have hsymbol : (r.acc >>> (r.cnt.toNat - 5)).setWidth 5 = groupAt s 5 (5 * q) := by
    apply BitVec.eq_of_toNat_eq
    rw [BitVec.toNat_setWidth, BitVec.toNat_ushiftRight, Nat.shiftRight_eq_div_pow, hheld, mul_comm,
      Nat.mul_add_div (by positivity), Nat.div_eq_of_lt hlt, Nat.add_zero, Nat.mod_eq_of_lt (BitVec.isLt _)]
  refine ⟨?_, ?_, ?_⟩ <;> simp only [encEmit]
  · rw [symbolsOf_succ, hsub, hsymbol, h.out_eq]
  · omega
  · rw [hsub, toNat_and_lowMask _ (by omega), hheld, Nat.mul_add_mod_of_lt hlt, Nat.mul_succ]

/-- The last symbol is the bits held and zeros on their right. -/
theorem EncHolds.flush (h : EncHolds s q r out) (hcnt : r.cnt.toNat < 5) :
    encFlush r out = symbolsOf s ((s.length + 4) / 5) := by
  have hlen := h.cnt_eq
  rw [encFlush]
  split
  case isFalse hnone => rw [h.out_eq, show (s.length + 4) / 5 = q by omega]
  case isTrue hsome =>
    have hpadded : streamBits s (5 * q) 5 = s.drop (5 * q) ++ List.replicate (5 - r.cnt.toNat) false := by
      rw [← streamBits_zeros (by omega), show s.length - 5 * q + (5 - r.cnt.toNat) = 5 by omega]
    have hsymbol : (r.acc <<< (5 - r.cnt.toNat)).setWidth 5 = groupAt s 5 (5 * q) := by
      have hfits := (groupAt s 5 (5 * q)).isLt
      apply BitVec.eq_of_toNat_eq
      rw [toNat_groupAt, hpadded, natOfBits_append, natOfBits_replicate_false, List.length_replicate, Nat.add_zero,
        ← h.acc_eq] at hfits ⊢
      rw [BitVec.toNat_setWidth, BitVec.toNat_shiftLeft, Nat.shiftLeft_eq, Nat.mod_eq_of_lt (hfits.trans (by decide)),
        Nat.mod_eq_of_lt hfits]
    rw [hsymbol, h.out_eq, ← symbolsOf_succ, show (s.length + 4) / 5 = q + 1 by omega]

/-- The `while` ends with every whole symbol put out. -/
theorem EncHolds.drain {fuel : Nat} (h : EncHolds s q r out) (hfuel : r.cnt.toNat < 5 * (fuel + 1)) :
    EncHolds s (s.length / 5) (encDrain fuel r out).1 (encDrain fuel r out).2 := by
  induction fuel generalizing q r out with
  | zero =>
    have hlen := h.cnt_eq
    rwa [encDrain, show s.length / 5 = q by omega]
  | succ fuel ih =>
    have hlen := h.cnt_eq
    rw [encDrain]
    split
    case isTrue hcnt =>
      have hnext := (h.emit hcnt).cnt_eq
      exact ih (h.emit hcnt) (by omega)
    case isFalse hcnt => rwa [show s.length / 5 = q by omega]

/-- The `for` loop keeps the invariant. -/
theorem EncHolds.loop (bytes : List Byte) (h : EncHolds s (s.length / 5) r out) :
    EncHolds (s ++ byteStream bytes) ((s ++ byteStream bytes).length / 5) (encLoop r out bytes).1
      (encLoop r out bytes).2 := by
  induction bytes generalizing s r out with
  | nil => rwa [byteStream_nil, List.append_nil, encLoop]
  | cons b bs ih =>
    have hlen := h.cnt_eq
    have htake := h.take (by omega) b
    have hnext := htake.cnt_eq
    rw [List.length_append, bitsOf_length] at hnext
    rw [byteStream_cons, ← List.append_assoc, encLoop]
    exact ih (htake.drain (by omega))

end Turn

/-- The invariant at the top of the `for` loop, with `bytes` taken in. -/
theorem encLoop_holds (bytes : List Byte) :
    EncHolds (byteStream bytes) (8 * bytes.length / 5) (encLoop CodecRegs.zero [] bytes).1
      (encLoop CodecRegs.zero [] bytes).2 := by
  have hloop := EncHolds.zero.loop bytes
  rwa [List.nil_append, byteStream_length] at hloop

theorem encStream_text (bytes : List Byte) : (encStream bytes).2 = enc bytes := by
  have hholds := encLoop_holds bytes
  have hlen := hholds.cnt_eq
  rw [byteStream_length] at hlen
  rw [encStream, hholds.flush (by omega), byteStream_length, ← encLen, ← enc_eq_symbolsOf]

/-- Settles O26: the invariant holds of the empty source and every byte keeps it; symbols and bits of the
first bytes are those of the whole source. -/
theorem encodeStreamingAgrees : Obligations.EncodeStreamingAgrees := by
  refine fun bytes => ⟨encStream_text bytes, fun i hi => ?_⟩
  have hlen : (bytes.take i).length = i := List.length_take_of_le hi
  obtain ⟨hout, hcnt, hacc⟩ := encLoop_holds (bytes.take i)
  obtain ⟨-, -, hidx⟩ := encLoop_inRange CodecRegs.zero [] (bytes.take i) (by decide) CodecRegs.zero_inRange
  rw [hlen] at hout hcnt hacc hidx
  rw [byteStream_length, hlen] at hcnt
  obtain ⟨hbound, -⟩ := encLen_bounds bytes.length
  refine ⟨?_, hidx.trans (Nat.zero_add i), by omega, ?_⟩
  · have hsplit : byteStream bytes = byteStream (bytes.take i) ++ byteStream (bytes.drop i) := by
      rw [← byteStream_append, List.take_append_drop]
    rw [hout, enc_eq_symbolsOf, symbolsOf_take _ (by omega), hsplit,
      symbolsOf_append (by rw [byteStream_length, hlen]; omega)]
  · rw [hacc, byteStream_take hi, List.drop_take]

end Sys2Proof.Machine
end

section
/-! PROOFS. The cleaning of a text operand: `Trim` and `TRIM_SET` (R79), the separators, the padding and the case
(R80 to R82), and what can be left out of a text (R83, R84, R93). -/

namespace Sys2Proof.Machine

/-! ## `TRIM_SET` (R79) -/

theorem isSep_eq_false {c : Byte} (hdash : c ≠ 0x2D) (hspace : c ≠ 0x20) : isSep c = false :=
  Bool.or_eq_false_iff.2 ⟨beq_false_of_ne hdash, beq_false_of_ne hspace⟩

/-- What every code in `TRIM_SET` must meet (R79, R53). -/
def TrimAdmissible (c : Byte) : Prop :=
  isSymbol c = false ∧ isLower c = false ∧ c ≠ 0x2D ∧ c ≠ 0x3D ∧ c.toNat < 0x80

theorem trimAdmissible_of_inTrimSet {P : Params} {c : Byte} (h : inTrimSet P c = true) : TrimAdmissible c := by
  obtain rfl | ⟨hsym, hlower, hsep, hpad, hclassless, -⟩ := (inTrimSet_iff P c).1 h
  · unfold TrimAdmissible
    decide
  · refine ⟨hsym, hlower, ?_, ?_, ?_⟩
    · rintro rfl; cases hsep
    · rintro rfl; cases hpad
    · simpa [isClassless] using hclassless

theorem inTrimSet_eq_false_of_isSymbol {P : Params} {c : Byte} (h : isSymbol c = true) : inTrimSet P c = false :=
  Bool.eq_false_iff.2 fun hin => by
    obtain ⟨hsym, -⟩ := trimAdmissible_of_inTrimSet hin
    exact Bool.eq_false_iff.1 hsym h

/-- A set that holds space and only such codes is taken as it is (R79). -/
theorem inTrimSet_of_admissible (P : Params) {S : Byte → Bool} (hspace : S 0x20 = true)
    (hS : ∀ c, S c = true → TrimAdmissible c) (c : Byte) : inTrimSet { P with trimSet := S } c = S c := by
  obtain rfl | hc := eq_or_ne c 0x20
  · rw [inTrimSet_space, hspace]
  rw [Bool.eq_iff_iff, inTrimSet_iff]
  constructor
  · rintro (hc' | ⟨-, -, -, -, -, hmem⟩)
    · exact absurd hc' hc
    · exact hmem
  · intro hmem
    obtain ⟨hsym, hlower, hdash, hpad, hlt⟩ := hS c hmem
    exact .inr ⟨hsym, hlower, isSep_eq_false hdash hc, beq_false_of_ne hpad, decide_eq_false hlt.not_ge, hmem⟩

theorem defTrimSet_iff {c : Byte} : Config.defTrimSet c = true ↔ c.toNat ≤ 0x20 := decide_eq_true_iff

/-- The default of `TRIM_SET` meets the constraints of R79 and R53. -/
theorem trimAdmissible_of_defTrimSet {c : Byte} (h : Config.defTrimSet c = true) : TrimAdmissible c := by
  rw [defTrimSet_iff] at h
  refine ⟨?_, ?_, by bv_omega, by bv_omega, by omega⟩
  · rw [← Bool.not_eq_true, isSymbol_iff]; omega
  · rw [← Bool.not_eq_true, isLower_iff]; omega

theorem inTrimSet_defaults (c : Byte) : inTrimSet Config.defaults c = Config.defTrimSet c :=
  inTrimSet_of_admissible Config.defaults rfl (fun _ => trimAdmissible_of_defTrimSet) c

/-! ## `Trim` (R79) -/

theorem trim_eq_rdropWhile (P : Params) (t : List Byte) :
    trim P t = (t.dropWhile (inTrimSet P)).rdropWhile (inTrimSet P) := rfl

/-- `Trim` removes a run of `TRIM_SET` codes at each end. -/
theorem exists_append_trim_append (P : Params) (t : List Byte) :
    ∃ p q, t = p ++ trim P t ++ q ∧ (∀ c ∈ p, inTrimSet P c = true) ∧ ∀ c ∈ q, inTrimSet P c = true := by
  refine ⟨t.takeWhile (inTrimSet P), (t.dropWhile (inTrimSet P)).rtakeWhile (inTrimSet P), ?_,
    fun _ => List.mem_takeWhile_imp, fun _ => List.mem_rtakeWhile_imp⟩
  rw [trim_eq_rdropWhile, List.append_assoc, List.rdropWhile_append_rtakeWhile, List.takeWhile_append_dropWhile]

theorem mem_of_mem_trim {P : Params} {t : List Byte} {c : Byte} (h : c ∈ trim P t) : c ∈ t :=
  (List.dropWhile_suffix _).subset ((List.rdropWhile_prefix (inTrimSet P) _).subset h)

/-- The run removed at the start is the longest. -/
theorem inTrimSet_of_head?_trim {P : Params} {t : List Byte} {c : Byte} (h : (trim P t).head? = some c) :
    inTrimSet P c = false := by
  obtain ⟨rest, hrest⟩ := List.rdropWhile_prefix (inTrimSet P) (t.dropWhile (inTrimSet P))
  have hhead : (t.dropWhile (inTrimSet P)).head? = some c := by
    rw [← hrest, ← trim_eq_rdropWhile, List.head?_append, h, Option.some_or]
  have hnot := List.head?_dropWhile_not (inTrimSet P) t
  rwa [hhead] at hnot

/-- What a run of codes removed at the end leaves does not end in such a code. -/
theorem eq_false_of_getLast?_rdropWhile {p : Byte → Bool} {t : List Byte} {c : Byte}
    (h : (t.rdropWhile p).getLast? = some c) : p c = false := by
  have hnot := List.head?_dropWhile_not p t.reverse
  rw [List.rdropWhile, List.getLast?_reverse] at h
  rwa [h] at hnot

/-- Settles O29: `Trim` splits the text at the runs of `TRIM_SET` at its ends, and the set is the platform's within the
constraints, the default included. -/
theorem trimRemovesLongestRuns : Obligations.TrimRemovesLongestRuns := by
  intro P t
  obtain ⟨p, q, hsplit, hp, hq⟩ := exists_append_trim_append P t
  exact ⟨⟨p, q, hsplit, hp, hq, fun _ => inTrimSet_of_head?_trim, fun _ => eq_false_of_getLast?_rdropWhile⟩,
    inTrimSet_space P, fun _ => trimAdmissible_of_inTrimSet, fun _ hspace hS => inTrimSet_of_admissible P hspace hS,
    fun c => by rw [inTrimSet_defaults, defTrimSet_iff]⟩

theorem trim_eq_nil {P : Params} {t : List Byte} (h : ∀ c ∈ t, inTrimSet P c = true) : trim P t = [] := by
  rw [trim_eq_rdropWhile, List.dropWhile_eq_nil_iff.2 h, List.rdropWhile_nil]

theorem trim_eq_self {P : Params} {t : List Byte} (h : ∀ c ∈ t, inTrimSet P c = false) : trim P t = t := by
  rw [trim_eq_rdropWhile, List.dropWhile_eq_self_iff.2 fun _ => by simp [h], List.rdropWhile_eq_self_iff.2]
  exact fun hne => by simp [h]

/-! ## Separators, padding and case (R80 to R82) -/

theorem mem_removeSep {t : List Byte} {c : Byte} : c ∈ removeSep t ↔ c ∈ t ∧ isSep c = false := by
  simp [removeSep]

@[simp] theorem removeSep_append (x y : List Byte) : removeSep (x ++ y) = removeSep x ++ removeSep y :=
  List.filter_append x y

theorem removeSep_eq_nil {t : List Byte} (h : ∀ c ∈ t, isSep c = true) : removeSep t = [] :=
  List.filter_eq_nil_iff.2 fun c hc => by simp [h c hc]

theorem removeSep_eq_self {t : List Byte} (h : ∀ c ∈ t, isSep c = false) : removeSep t = t :=
  List.filter_eq_self.2 fun c hc => by simp [h c hc]

theorem stripPad_eq_rdropWhile (t : List Byte) : stripPad t = t.rdropWhile isPad := rfl

theorem stripPad_eq_self {t : List Byte} (h : ∀ c ∈ t, isPad c = false) : stripPad t = t :=
  List.rdropWhile_eq_self_iff.2 fun hne => by simp [h]

theorem stripPad_eq_nil {t : List Byte} (h : ∀ c ∈ t, isPad c = true) : stripPad t = [] :=
  List.rdropWhile_eq_nil_iff.2 h

theorem mem_of_mem_stripPad {t : List Byte} {c : Byte} (h : c ∈ stripPad t) : c ∈ t :=
  (List.rdropWhile_prefix isPad _).subset h

/-- `StripPad` removes a run of `'='` at the end. -/
theorem exists_stripPad_append_replicate (t : List Byte) : ∃ k, t = stripPad t ++ List.replicate k 0x3D := by
  have hrun : t.rtakeWhile isPad = List.replicate (t.rtakeWhile isPad).length 0x3D :=
    List.eq_replicate_iff.2 ⟨rfl, fun _ hc => beq_iff_eq.1 (List.mem_rtakeWhile_imp (p := isPad) hc)⟩
  exact ⟨_, by rw [← hrun, stripPad_eq_rdropWhile, List.rdropWhile_append_rtakeWhile]⟩

theorem getLast?_stripPad_ne (t : List Byte) : (stripPad t).getLast? ≠ some 0x3D :=
  fun h => absurd (eq_false_of_getLast?_rdropWhile h) (by decide)

theorem upperChar_eq (c : Byte) : upperChar c = if 0x61 ≤ c.toNat ∧ c.toNat ≤ 0x7A then c - 0x20 else c := by
  simp only [upperChar, isLower_iff]

theorem upperChar_of_isSymbol {c : Byte} (h : isSymbol c = true) : upperChar c = c :=
  upperChar_of_not_isLower (isLower_eq_false_of_isSymbol h)

/-- Settles O30: the order is `Clean`'s definition, and each step is read off its own law. -/
theorem cleaningSteps : Obligations.CleaningSteps := by
  intro P t
  obtain ⟨k, hk⟩ := exists_stripPad_append_replicate t
  refine ⟨rfl, ?_, ⟨k, hk, getLast?_stripPad_ne t⟩, List.length_map _, fun j hj => ?_⟩
  · exact List.filter_congr fun c _ => Bool.not_or _ _
  · rw [upper, List.getElem?_map, List.getElem?_eq_getElem hj, Option.map_some, upperChar_eq]

/-! ## What cleaning keeps -/

/-- A code left after cleaning is a code of the text that is no separator, folded. -/
theorem exists_upperChar_of_mem_clean {P : Params} {t : List Byte} {c : Byte} (h : c ∈ clean P t) :
    ∃ d ∈ t, isSep d = false ∧ upperChar d = c := by
  obtain ⟨d, hd, rfl⟩ := List.mem_map.1 h
  obtain ⟨htrim, hsep⟩ := mem_removeSep.1 (mem_of_mem_stripPad hd)
  exact ⟨d, mem_of_mem_trim htrim, hsep, rfl⟩

/-- The offender is a code of the raw text, since folding makes a symbol of every code it changes (R83 (d)). -/
theorem offender_of_dec_eq_error {P : Params} {t : List Byte} {c : Byte} (h : dec P t = .error c) :
    c ∈ t ∧ isSymbol c = false ∧ isLower c = false ∧ isSep c = false := by
  rw [dec_eq_error_iff] at h
  have hsym : isSymbol c = false := by simpa using List.find?_some h
  obtain ⟨d, hd, hsep, rfl⟩ := exists_upperChar_of_mem_clean (List.mem_of_find?_eq_some h)
  rcases hlower : isLower d
  case true => simp [isSymbol_upperChar hlower] at hsym
  rw [upperChar_of_not_isLower hlower] at hsym ⊢
  exact ⟨hd, hsym, hlower, hsep⟩

/-- Settles O37: the character reported is the one the decoder stopped on. -/
theorem offenderIsRawCode : Obligations.OffenderIsRawCode := by
  intro s t h hstatus
  rw [exec_eq_next_iff] at h
  subst h
  exact offender_of_dec_eq_error
    (opRun_invalidCharacter (i := .b32dec) (Response.of_status_invalidCharacter hstatus))

/-- Cleaning leaves a text of symbols as it is. -/
theorem clean_eq_self {P : Params} {t : List Byte} (h : ∀ c ∈ t, isSymbol c = true) : clean P t = t := by
  rw [clean, trim_eq_self fun c hc => inTrimSet_eq_false_of_isSymbol (h c hc),
    removeSep_eq_self fun c hc => (isPad_isSep_eq_false_of_isSymbol (h c hc)).2,
    stripPad_eq_self fun c hc => (isPad_isSep_eq_false_of_isSymbol (h c hc)).1, upper,
    List.map_congr_left fun c hc => upperChar_of_isSymbol (h c hc), List.map_id']

/-- Texts that clean to nothing (R84). -/
theorem clean_eq_nil {P : Params} {t : List Byte}
    (h : (∀ c ∈ t, inTrimSet P c = true) ∨ ∀ c ∈ t, isSep c = true ∨ isPad c = true) : clean P t = [] := by
  obtain htrim | hmix := h
  · rw [clean, trim_eq_nil htrim]
    rfl
  · have hpad : ∀ c ∈ removeSep (trim P t), isPad c = true := fun c hc => by
      obtain ⟨hmem, hsep⟩ := mem_removeSep.1 hc
      simpa [hsep] using hmix c (mem_of_mem_trim hmem)
    rw [clean, stripPad_eq_nil hpad]
    rfl

/-! ## Separators and case (R80, R83, R93) -/

@[simp] theorem upperChar_upperChar (c : Byte) : upperChar (upperChar c) = upperChar c := by
  rcases h : isLower c
  case false => rw [upperChar_of_not_isLower h, upperChar_of_not_isLower h]
  case true => exact upperChar_of_isSymbol (isSymbol_upperChar h)

/-- A lower-case letter is neither `'='` nor a separator. -/
theorem isPad_isSep_eq_false_of_isLower {c : Byte} (h : isLower c = true) : isPad c = false ∧ isSep c = false := by
  have hpad : c ≠ 0x3D := by rintro rfl; cases h
  have hdash : c ≠ 0x2D := by rintro rfl; cases h
  have hspace : c ≠ 0x20 := by rintro rfl; cases h
  exact ⟨beq_false_of_ne hpad, isSep_eq_false hdash hspace⟩

/-- Folding makes and removes no `'='` and no separator. -/
theorem isPad_isSep_upperChar (c : Byte) : isPad (upperChar c) = isPad c ∧ isSep (upperChar c) = isSep c := by
  rcases h : isLower c
  case false => rw [upperChar_of_not_isLower h]; exact ⟨rfl, rfl⟩
  case true =>
    obtain ⟨hpad, hsep⟩ := isPad_isSep_eq_false_of_isLower h
    obtain ⟨hpad', hsep'⟩ := isPad_isSep_eq_false_of_isSymbol (isSymbol_upperChar h)
    exact ⟨hpad'.trans hpad.symm, hsep'.trans hsep.symm⟩

/-- Folding brings no code into `TRIM_SET`. -/
theorem upperChar_of_inTrimSet_upperChar {P : Params} {c : Byte} (h : inTrimSet P (upperChar c) = true) :
    upperChar c = c := by
  rcases hlower : isLower c
  case false => exact upperChar_of_not_isLower hlower
  case true => exact absurd h (Bool.eq_false_iff.1 (inTrimSet_eq_false_of_isSymbol (isSymbol_upperChar hlower)))

theorem removeSep_upper (t : List Byte) : removeSep (upper t) = upper (removeSep t) := by
  have hsep : (fun c => !isSep c) ∘ upperChar = fun c => !isSep c :=
    funext fun c => congrArg (!·) (isPad_isSep_upperChar c).2
  rw [removeSep, upper, List.filter_map, hsep, ← upper, ← removeSep]

theorem stripPad_upper (t : List Byte) : stripPad (upper t) = upper (stripPad t) := by
  have hpad : isPad ∘ upperChar = isPad := funext fun c => (isPad_isSep_upperChar c).1
  rw [stripPad, upper, ← List.map_reverse, List.dropWhile_map, hpad, ← List.map_reverse, ← upper, ← stripPad]

@[simp] theorem upper_upper (t : List Byte) : upper (upper t) = upper t := by
  rw [upper, upper, List.map_map]
  exact List.map_congr_left fun c _ => upperChar_upperChar c

/-- Where space is the only code of `TRIM_SET`, `Trim` removes nothing but separators. -/
theorem removeSep_trim {P : Params} {t : List Byte} (h : ∀ c ∈ t, inTrimSet P c = true → c = 0x20) :
    removeSep (trim P t) = removeSep t := by
  obtain ⟨p, q, hsplit, hp, hq⟩ := exists_append_trim_append P t
  have hsep : ∀ c ∈ t, inTrimSet P c = true → isSep c = true := fun c hc hin => by rw [h c hc hin]; rfl
  have hp' : removeSep p = [] := removeSep_eq_nil fun c hc => hsep c (by rw [hsplit]; simp [hc]) (hp c hc)
  have hq' : removeSep q = [] := removeSep_eq_nil fun c hc => hsep c (by rw [hsplit]; simp [hc]) (hq c hc)
  conv_rhs => rw [hsplit, removeSep_append, removeSep_append, hp', hq', List.nil_append, List.append_nil]

/-- The result of a decode is determined by the cleaned text (R77). -/
theorem dec_congr {P : Params} {t u : List Byte} (h : clean P t = clean P u) : dec P t = dec P u := by
  rw [dec, dec, h]

/-- Cleaning is the same with the separators left out beforehand (R80). -/
theorem clean_removeSep {P : Params} {t : List Byte} (h : ∀ c ∈ t, inTrimSet P c = true → c = 0x20) :
    clean P (removeSep t) = clean P t := by
  have htrim : ∀ c ∈ removeSep t, inTrimSet P c = false := fun c hc => by
    obtain ⟨hmem, hsep⟩ := mem_removeSep.1 hc
    refine Bool.eq_false_iff.2 fun hin => ?_
    rw [h c hmem hin] at hsep
    cases hsep
  rw [clean, clean, removeSep_trim h, trim_eq_self htrim, removeSep_eq_self fun c hc => (mem_removeSep.1 hc).2]

/-- Cleaning is the same with the letters folded beforehand (R93 (c)). -/
theorem clean_upper {P : Params} {t : List Byte} (h : ∀ c ∈ t, inTrimSet P c = true → c = 0x20) :
    clean P (upper t) = clean P t := by
  have hfolded : ∀ c ∈ upper t, inTrimSet P c = true → c = 0x20 := fun c hc hin => by
    obtain ⟨d, hd, rfl⟩ := List.mem_map.1 hc
    have hsame := upperChar_of_inTrimSet_upperChar hin
    rw [hsame] at hin ⊢
    exact h d hd hin
  rw [clean, clean, removeSep_trim hfolded, removeSep_trim h, removeSep_upper, stripPad_upper, upper_upper]

/-- Settles O38: separators left out and letters folded beforehand, the text cleans to the same. -/
theorem separatorsAndCaseTolerated : Obligations.SeparatorsAndCaseTolerated :=
  fun _ _ h => ⟨(dec_congr (clean_removeSep h)).symm, (dec_congr (clean_upper h)).symm⟩

end Sys2Proof.Machine
end

section
/-! PROOFS. The decoder: its run on a source (R77, R85), and the bytes of a text of symbols in terms of the symbol
stream (R86, R92, R93). -/

namespace Sys2Proof.Machine

/-! ## The run (R77) -/

theorem exec_b32dec_of_ok {s : State} {out : List Byte} (h : dec Config.params s.req.src.bytes = .ok out) :
    ∃ t, exec .b32dec s = .next t ∧ t.resp = Response.return out :=
  ⟨_, exec_b32dec s, by rw [State.complete_resp, decodeRun_result_of_ok h, Response.of_ok]⟩

theorem exec_b32dec_of_error {s : State} {c : Byte} (h : dec Config.params s.req.src.bytes = .error c) :
    ∃ t, exec .b32dec s = .next t ∧ t.resp = Response.raise (.invalidCharacter c) :=
  ⟨_, exec_b32dec s, by rw [State.complete_resp, decodeRun_result_of_error h, Response.of_error]⟩

/-- A text that cleans to symbols decodes to their bytes (R86). -/
theorem dec_of_clean_isSymbol {P : Params} {t : List Byte} (h : ∀ c ∈ clean P t, isSymbol c = true) :
    dec P t = .ok (decBits (clean P t)) :=
  (dec_eq_ok_iff P t _).2 ⟨h, rfl⟩

theorem dec_of_isSymbol (P : Params) {t : List Byte} (h : ∀ c ∈ t, isSymbol c = true) : dec P t = .ok (decBits t) := by
  have hclean : clean P t = t := clean_eq_self h
  rw [dec_of_clean_isSymbol (by rwa [hclean]), hclean]

/-- Settles O32: the search for an element that is no symbol passes over the symbols before the first. -/
theorem decodeFirstInvalid : Obligations.DecodeFirstInvalid := by
  intro s p q c hclean hp hc
  have hfirst : dec Config.params s.req.src.bytes = .error c := by
    have hnone : p.find? (fun x => !isSymbol x) = none := List.find?_eq_none.2 fun x hx => by simp [hp x hx]
    rw [dec_eq_error_iff, hclean, List.find?_append, hnone, Option.none_or, List.find?_cons_of_pos (by simp [hc])]
  obtain ⟨t, ht, hresp⟩ := exec_b32dec_of_error hfirst
  exact ⟨t, ht, by rw [hresp]; exact ⟨rfl, rfl, rfl⟩⟩

/-- Settles O34: nothing is left to decode, and no symbols give no bytes. -/
theorem decodeEmptyTexts : Obligations.DecodeEmptyTexts := by
  intro s hs
  have hclean : clean Config.params s.req.src.bytes = [] := clean_eq_nil hs
  obtain ⟨t, ht, hresp⟩ := exec_b32dec_of_ok (dec_of_clean_isSymbol (by rw [hclean]; nofun))
  rw [hclean] at hresp
  exact ⟨t, ht, by rw [hresp]; exact ⟨rfl, rfl, rfl⟩⟩

/-! ## The bytes of a bit stream (R86) -/

/-- The first `q` bytes of a bit stream. -/
def bytesOf (s : List Bool) (q : Nat) : List Byte := (List.range q).map (fun i => groupAt s 8 (8 * i))

theorem decBits_eq_bytesOf (t : List Byte) : decBits t = bytesOf (symbolStream t) (5 * t.length / 8) := rfl

@[simp] theorem bytesOf_length (s : List Bool) (q : Nat) : (bytesOf s q).length = q := by simp [bytesOf]

theorem bytesOf_succ (s : List Bool) (q : Nat) : bytesOf s (q + 1) = bytesOf s q ++ [groupAt s 8 (8 * q)] := by
  simp [bytesOf, List.range_succ]

theorem bytesOf_take (s : List Bool) {q m : Nat} (h : q ≤ m) : (bytesOf s m).take q = bytesOf s q := by
  rw [bytesOf, ← List.map_take, List.take_range, Nat.min_eq_left h, bytesOf]

/-- Bytes that lie within a stream do not change when it goes on. -/
theorem bytesOf_append {s : List Bool} {q : Nat} (h : 8 * q ≤ s.length) (t : List Bool) :
    bytesOf (s ++ t) q = bytesOf s q := by
  refine List.map_congr_left fun i hi => ?_
  have hi := List.mem_range.1 hi
  rw [groupAt_congr (streamBits_append (by omega) t)]

/-- The bytes of a stream carry it. -/
theorem byteStream_bytesOf (s : List Bool) (q : Nat) : byteStream (bytesOf s q) = streamBits s 0 (8 * q) := by
  induction q with
  | zero => rfl
  | succ q ih =>
    rw [bytesOf_succ, byteStream_append, ih, byteStream_cons, byteStream_nil, List.append_nil, bitsOf_groupAt,
      Nat.mul_succ, streamBits_add, Nat.zero_add]

/-! ## The stream of a symbol text -/

@[simp] theorem symbolStream_nil : symbolStream [] = [] := rfl

@[simp] theorem symbolStream_cons (c : Byte) (t : List Byte) :
    symbolStream (c :: t) = bitsOf ((val c).getD 0) ++ symbolStream t :=
  List.flatMap_cons

theorem symbolStream_append (x y : List Byte) : symbolStream (x ++ y) = symbolStream x ++ symbolStream y :=
  List.flatMap_append

theorem symbolStream_take {t : List Byte} {j : Nat} (hj : j ≤ t.length) :
    symbolStream (t.take j) = (symbolStream t).take (5 * j) := by
  conv_rhs => rw [← List.take_append_drop j t, symbolStream_append]
  rw [List.take_left' (by simp [hj])]

/-- The symbols' values are the base-32 digits of the number of their stream. -/
theorem natOfBits_symbolStream (t : List Byte) : natOfBits (symbolStream t) = numberOf 32 (t.map symbolValue) := by
  induction t using List.reverseRecOn with
  | nil => rfl
  | append_singleton t c ih =>
    rw [symbolStream_append, natOfBits_append, ih, List.map_append, List.map_singleton, numberOf_append_singleton,
      symbolStream_cons, symbolStream_nil, List.append_nil, natOfBits_bitsOf, bitsOf_length, mul_comm]
    rfl

/-- Bit `k` of the stream is bit `4 - k mod 5` of symbol `k / 5`. -/
theorem symbolStream_getD (t : List Byte) (k : Nat) :
    (symbolStream t).getD k false = ((val (t.getD (k / 5) 0)).getD 0).getLsbD (4 - k % 5) := by
  induction t generalizing k with
  | nil => simp [val]
  | cons c cs ih =>
    rw [symbolStream_cons]
    obtain hk | hk := Nat.lt_or_ge k 5
    · rw [List.getD_append _ _ _ _ (by simpa using hk), Nat.div_eq_of_lt hk, Nat.mod_eq_of_lt hk, List.getD_cons_zero]
      simp [bitsOf, hk]
    · rw [List.getD_append_right _ _ _ _ (by simpa using hk), bitsOf_length, ih,
        show k / 5 = (k - 5) / 5 + 1 by omega, List.getD_cons_succ, show k % 5 = (k - 5) % 5 by omega]

theorem symbolBit_eq (t : List Byte) (k : Nat) : symbolBit t k = ((symbolStream t).getD k false).toNat := by
  rw [symbolBit, symbolStream_getD, symbolValue, ← BitVec.testBit_toNat, Nat.toNat_testBit]

/-! ## The decoded bytes (R86) -/

/-- A group of 8 bits, from its bits. -/
theorem toNat_groupAt_eight (s : List Bool) (k : Nat) :
    (groupAt s 8 k).toNat =
      128 * (s.getD k false).toNat + 64 * (s.getD (k + 1) false).toNat + 32 * (s.getD (k + 2) false).toNat +
        16 * (s.getD (k + 3) false).toNat + 8 * (s.getD (k + 4) false).toNat + 4 * (s.getD (k + 5) false).toNat +
        2 * (s.getD (k + 6) false).toNat + (s.getD (k + 7) false).toNat := by
  have hbits : streamBits s k 8 =
      [s.getD k false, s.getD (k + 1) false, s.getD (k + 2) false, s.getD (k + 3) false, s.getD (k + 4) false,
        s.getD (k + 5) false, s.getD (k + 6) false, s.getD (k + 7) false] := rfl
  rw [toNat_groupAt, hbits]
  simp only [natOfBits, List.foldl_cons, List.foldl_nil]
  omega

/-- Byte `i` of a decode is a base-256 digit of the text's number, with the tail bits below it. -/
theorem toNat_groupAt_symbolStream (t : List Byte) {i : Nat} (hi : i < 5 * t.length / 8) :
    (groupAt (symbolStream t) 8 (8 * i)).toNat =
      numberOf 32 (t.map symbolValue) / 2 ^ (5 * t.length - 8 * (i + 1)) % 256 := by
  have hsplit : 8 * i + 8 + (5 * t.length - 8 * (i + 1)) = (symbolStream t).length := by
    rw [symbolStream_length]
    omega
  have hwhole : streamBits (symbolStream t) 0 (symbolStream t).length = symbolStream t := by
    rw [streamBits_of_le (Nat.zero_add _).le, List.drop_zero, List.take_length]
  rw [toNat_groupAt, natOfBits_streamBits, hsplit, hwhole, natOfBits_symbolStream]
  rfl

/-- Settles O31: the delivered bytes are `DecBits` of the cleaned text, each read both as eight bits and as a digit. -/
theorem decodeResult : Obligations.DecodeResult := by
  intro s t4 m b v S hsym
  obtain ⟨t, ht, hresp⟩ := exec_b32dec_of_ok (dec_of_clean_isSymbol hsym)
  refine ⟨t, ht, by rw [hresp]; rfl, by rw [hresp]; rfl, by rw [hresp]; exact decBits_length _, fun i hi => ?_⟩
  have hbits : (groupAt (symbolStream t4) 8 (8 * i)).toNat = v i := by
    rw [toNat_groupAt_eight]
    simp only [v, b, symbolBit_eq]
  refine ⟨?_, by rw [← hbits]; exact toNat_groupAt_symbolStream t4 hi⟩
  rw [hresp, Response.return_res, Buffer.read_ofBytes, ← hbits]
  exact congrArg BitVec.toNat (getD_map_range _ hi)

/-! ## Decoding what was encoded (R92) -/

/-- The padding zeros complete no byte. -/
theorem decLen_encLen (n : Nat) : 5 * encLen n / 8 = n := by
  obtain ⟨hlow, hhigh⟩ := encLen_bounds n
  omega

/-- The bytes of the text's stream are those of the source's, since the padding completes no byte. -/
theorem decBits_enc (bytes : List Byte) : decBits (enc bytes) = bytes := by
  apply byteStream_inj
  rw [decBits_eq_bytesOf, byteStream_bytesOf, enc_length, decLen_encLen, symbolStream_enc,
    streamBits_append (by simp), streamBits_of_le (by simp), List.drop_zero, ← byteStream_length, List.take_length]

theorem isSymbol_of_mem_enc {bytes : List Byte} {c : Byte} (h : c ∈ enc bytes) : isSymbol c = true := by
  obtain ⟨v, rfl⟩ := exists_alpha_of_mem_enc h
  exact isSymbol_alpha v

theorem dec_enc (P : Params) (bytes : List Byte) : dec P (enc bytes) = .ok bytes := by
  rw [dec_of_isSymbol P fun _ => isSymbol_of_mem_enc, decBits_enc]

/-- Settles O35: the text delivered is `Enc` of the source, and it decodes to the source's bytes. -/
theorem roundTrip : Obligations.RoundTrip := by
  intro s hlen
  have hdec : dec Config.params (Buffer.ofBytes (enc s.req.src.bytes)).bytes = .ok s.req.src.bytes := by
    rw [Buffer.bytes_ofBytes, dec_enc]
  refine ⟨_, _, exec_b32enc_of_lt_encLimit hlen, exec_b32dec _, ?_⟩
  simp [decodeRun_result_of_ok hdec]

/-! ## A further symbol (R93) -/

/-- The residues at which 5 bits more complete no byte. -/
theorem decLen_succ_eq_iff (m : Nat) : 5 * (m + 1) / 8 = 5 * m / 8 ↔ m % 8 = 0 ∨ m % 8 = 2 ∨ m % 8 = 5 := by
  have hr := Nat.mod_lt m (show 0 < 8 by decide)
  generalize hm : m % 8 = r at hr ⊢
  interval_cases r <;> omega

/-- A further symbol leaves the bytes as they were if their number stays. -/
theorem decBits_concat_eq_iff (t : List Byte) (c : Byte) :
    decBits (t ++ [c]) = decBits t ↔ 5 * (t.length + 1) / 8 = 5 * t.length / 8 := by
  constructor
  · intro h
    simpa using congrArg List.length h
  · intro h
    rw [decBits_eq_bytesOf, decBits_eq_bytesOf, symbolStream_append, List.length_append, List.length_singleton, h,
      bytesOf_append (by rw [symbolStream_length]; omega)]

/-- Settles O36: both texts decode to their bytes, which agree when there are equally many. -/
theorem extraSymbolIgnored : Obligations.ExtraSymbolIgnored := by
  intro P t c ht hc
  have htc : ∀ x ∈ t ++ [c], isSymbol x = true := List.forall_mem_append.2 ⟨ht, List.forall_mem_singleton.2 hc⟩
  rw [dec_of_isSymbol P ht, dec_of_isSymbol P htc, Except.ok.injEq, decBits_concat_eq_iff, decLen_succ_eq_iff]

end Sys2Proof.Machine
end

section
/-! PROOFS. The streaming decoder (R88): the rule's invariant, kept by each symbol it takes in (R89). -/

namespace Sys2Proof.Machine

/-- The rule's invariant with the stream `s` taken in and its whole bytes put out: `CNT` and `ACC` are the bits held. -/
structure DecHolds (s : List Bool) (r : CodecRegs) (out : List Byte) : Prop where
  out_eq : out = bytesOf s (s.length / 8)
  cnt_eq : r.cnt.toNat = s.length % 8
  acc_eq : r.acc.toNat = natOfBits (s.drop (8 * (s.length / 8)))

/-- Where 8 bits are held, the oldest 8 are put out (R88). -/
theorem decTake_of_le {r : CodecRegs} {out : List Byte} {v : BitVec 5} (h : 8 ≤ (r.cnt + 5).toNat) :
    decTake r out v =
      (⟨((r.acc <<< 5) ||| v.setWidth 12) &&& BitVec.ofNat 12 (2 ^ (r.cnt + 5 - 8).toNat - 1), r.cnt + 5 - 8, r.idx + 1⟩,
        out ++ [(((r.acc <<< 5) ||| v.setWidth 12) >>> (r.cnt + 5 - 8).toNat).setWidth 8]) :=
  if_pos h

/-- Where fewer are held, the symbol's bits are only appended (R88). -/
theorem decTake_of_not_le {r : CodecRegs} {out : List Byte} {v : BitVec 5} (h : ¬ 8 ≤ (r.cnt + 5).toNat) :
    decTake r out v = (⟨(r.acc <<< 5) ||| v.setWidth 12, r.cnt + 5, r.idx + 1⟩, out) :=
  if_neg h

theorem DecHolds.zero : DecHolds [] CodecRegs.zero [] := ⟨rfl, rfl, rfl⟩

@[simp] theorem decTake_idx (r : CodecRegs) (out : List Byte) (v : BitVec 5) : (decTake r out v).1.idx = r.idx + 1 := by
  by_cases h : 8 ≤ (r.cnt + 5).toNat
  · rw [decTake_of_le h]
  · rw [decTake_of_not_le h]

section Turn

variable {s : List Bool} {r : CodecRegs} {out : List Byte}

/-- The bits held once a symbol is taken in, before a byte is put out. -/
theorem DecHolds.held (h : DecHolds s r out) (v : BitVec 5) :
    ((r.acc <<< 5) ||| v.setWidth 12).toNat = natOfBits ((s ++ bitsOf v).drop (8 * (s.length / 8))) := by
  have hle : 8 * (s.length / 8) ≤ s.length := Nat.mul_div_le _ _
  have hacc : r.acc.toNat < 2 ^ 7 := by
    rw [h.acc_eq]
    refine (natOfBits_lt _).trans_le (Nat.pow_le_pow_right (by decide) ?_)
    rw [List.length_drop]
    omega
  rw [List.drop_append_of_le_length hle, natOfBits_append, ← h.acc_eq, natOfBits_bitsOf, bitsOf_length,
    BitVec.toNat_or, BitVec.toNat_shiftLeft, BitVec.toNat_setWidth, Nat.mod_eq_of_lt (by rw [Nat.shiftLeft_eq]; omega),
    Nat.mod_eq_of_lt (by omega), ← Nat.shiftLeft_add_eq_or_of_lt v.isLt, Nat.shiftLeft_eq]

/-- The 8 oldest of `n + 8` bits held are the next byte of the stream, and the others stay held. -/
theorem oldest_byte_of_held {k n : Nat} {acc : BitVec 12} (hacc : acc.toNat = natOfBits (s.drop k))
    (hlen : s.length = k + 8 + n) (hn : n ≤ 12) :
    (acc >>> n).setWidth 8 = groupAt s 8 k ∧
      (acc &&& BitVec.ofNat 12 (2 ^ n - 1)).toNat = natOfBits (s.drop (k + 8)) := by
  have hkept : (s.drop (k + 8)).length = n := by rw [List.length_drop]; omega
  have hlt := natOfBits_lt (s.drop (k + 8))
  rw [hkept] at hlt
  have hheld : acc.toNat = (groupAt s 8 k).toNat * 2 ^ n + natOfBits (s.drop (k + 8)) := by
    rw [hacc, ← streamBits_append_drop (n := 8) (by omega), natOfBits_append, hkept, toNat_groupAt]
  constructor
  · apply BitVec.eq_of_toNat_eq
    rw [BitVec.toNat_setWidth, BitVec.toNat_ushiftRight, Nat.shiftRight_eq_div_pow, hheld, mul_comm,
      Nat.mul_add_div (by positivity), Nat.div_eq_of_lt hlt, Nat.add_zero, Nat.mod_eq_of_lt (BitVec.isLt _)]
  · rw [toNat_and_lowMask _ hn, hheld, Nat.mul_add_mod_of_lt hlt]

/-- A symbol taken in is appended to the bits held, and a byte is put out when 8 are held. -/
theorem DecHolds.take (h : DecHolds s r out) (v : BitVec 5) :
    DecHolds (s ++ bitsOf v) (decTake r out v).1 (decTake r out v).2 := by
  have hcnt := h.cnt_eq
  have hheld := h.held v
  have hadd : (r.cnt + 5).toNat = r.cnt.toNat + 5 := by
    rw [BitVec.toNat_add]
    exact Nat.mod_eq_of_lt (by simp; omega)
  have hlen : (s ++ bitsOf v).length = s.length + 5 := by rw [List.length_append, bitsOf_length]
  have hout : out = bytesOf (s ++ bitsOf v) (s.length / 8) := by
    rw [bytesOf_append (Nat.mul_div_le _ _), h.out_eq]
  by_cases h8 : 8 ≤ (r.cnt + 5).toNat
  case pos =>
    have hsub : (r.cnt + 5 - 8).toNat = r.cnt.toNat + 5 - 8 := by
      rw [← hadd]
      exact BitVec.toNat_sub_of_le (y := 8) h8
    obtain ⟨hbyte, hkept⟩ := oldest_byte_of_held hheld (n := r.cnt.toNat + 5 - 8) (by omega) (by omega)
    have hq : (s.length + 5) / 8 = s.length / 8 + 1 := by omega
    rw [decTake_of_le h8]
    refine ⟨?_, ?_, ?_⟩
    · rw [hlen, hq, bytesOf_succ, ← hout, hsub, hbyte]
    · rw [hlen, hsub]
      omega
    · rw [hlen, hq, hsub, hkept, Nat.mul_succ]
  case neg =>
    have hq : (s.length + 5) / 8 = s.length / 8 := by omega
    rw [decTake_of_not_le h8]
    refine ⟨?_, ?_, ?_⟩
    · rw [hlen, hq, ← hout]
    · rw [hlen, hadd]
      omega
    · rw [hlen, hq, hheld]

end Turn

/-! ## The loop -/

/-- A code that is no symbol ends the loop. -/
theorem decStream_cons_of_not_isSymbol (r : CodecRegs) (out : List Byte) {c : Byte} (hc : isSymbol c = false)
    (cs : List Byte) : decStream r out (c :: cs) = (r, .error c) := by
  have hval : val c = none := by simpa [isSymbol] using hc
  rw [decStream, hval]

/-- A symbol is taken in. -/
theorem decStream_cons_of_isSymbol (r : CodecRegs) (out : List Byte) {c : Byte} (hc : isSymbol c = true)
    (cs : List Byte) : decStream r out (c :: cs) =
      decStream (decTake r out ((val c).getD 0)).1 (decTake r out ((val c).getD 0)).2 cs := by
  obtain ⟨v, hv⟩ := Option.isSome_iff_exists.1 hc
  rw [decStream, hv, Option.getD_some]

/-- The loop stops on the first code that is no symbol (R85). -/
theorem decStream_first_invalid (r : CodecRegs) (out : List Byte) {p : List Byte} {c : Byte}
    (hp : ∀ x ∈ p, isSymbol x = true) (hc : isSymbol c = false) (q : List Byte) :
    (decStream r out (p ++ c :: q)).2 = .error c := by
  induction p generalizing r out with
  | nil => rw [List.nil_append, decStream_cons_of_not_isSymbol r out hc]
  | cons x xs ih =>
    rw [List.forall_mem_cons] at hp
    rw [List.cons_append, decStream_cons_of_isSymbol r out hp.1, ih _ _ hp.2]

/-- The loop over symbols keeps the invariant and counts them. -/
theorem DecHolds.loop {s : List Bool} {r : CodecRegs} {out : List Byte} (h : DecHolds s r out) {t : List Byte}
    (ht : ∀ c ∈ t, isSymbol c = true) :
    ∃ r' out', decStream r out t = (r', .ok out') ∧ DecHolds (s ++ symbolStream t) r' out' ∧
      r'.idx = r.idx + t.length := by
  induction t generalizing s r out with
  | nil => exact ⟨r, out, rfl, by rwa [symbolStream_nil, List.append_nil], rfl⟩
  | cons c cs ih =>
    rw [List.forall_mem_cons] at ht
    obtain ⟨r', out', hrun, hholds, hidx⟩ := ih (h.take ((val c).getD 0)) ht.2
    refine ⟨r', out', ?_, ?_, ?_⟩
    · rw [decStream_cons_of_isSymbol r out ht.1, hrun]
    · rwa [symbolStream_cons, ← List.append_assoc]
    · rw [hidx, decTake_idx, List.length_cons, Nat.add_right_comm, Nat.add_assoc]

/-- The streaming decoder on symbols: its registers hold the invariant, and its bytes are those of R86. -/
theorem decStream_holds {t : List Byte} (ht : ∀ c ∈ t, isSymbol c = true) :
    ∃ r, decStream CodecRegs.zero [] t = (r, .ok (decBits t)) ∧ DecHolds (symbolStream t) r (decBits t) ∧
      r.idx = t.length := by
  obtain ⟨r, out, hrun, hholds, hidx⟩ := DecHolds.zero.loop ht
  have hout : out = decBits t := by rw [hholds.out_eq, List.nil_append, symbolStream_length, decBits_eq_bytesOf]
  rw [hout] at hrun hholds
  exact ⟨r, hrun, hholds, hidx.trans (Nat.zero_add _)⟩

/-- The first symbols decode to the first bytes. -/
theorem decBits_take {t : List Byte} {j : Nat} (hj : j ≤ t.length) :
    decBits (t.take j) = (decBits t).take (5 * j / 8) := by
  have hlen : (t.take j).length = j := List.length_take_of_le hj
  have hsplit : symbolStream t = symbolStream (t.take j) ++ symbolStream (t.drop j) := by
    rw [← symbolStream_append, List.take_append_drop]
  rw [decBits_eq_bytesOf, decBits_eq_bytesOf, hlen, bytesOf_take _ (by omega), hsplit,
    bytesOf_append (by rw [symbolStream_length, hlen]; omega)]

/-- Settles O33: the invariant holds of the empty text and every symbol keeps it; bytes and bits of the first symbols
are those of the whole text. -/
theorem decodeStreamingAgrees : Obligations.DecodeStreamingAgrees := by
  refine ⟨fun p q c hp hc => decStream_first_invalid _ _ hp hc q, fun t ht => ⟨?_, fun j hj => ?_⟩⟩
  · obtain ⟨r, hrun, -⟩ := decStream_holds ht
    rw [hrun]
  · obtain ⟨r, hrun, hholds, hidx⟩ := decStream_holds fun c hc => ht c (List.mem_of_mem_take hc)
    obtain ⟨-, hcnt, hacc⟩ := hholds
    rw [symbolStream_length, List.length_take_of_le hj] at hcnt hacc
    simp only [hrun]
    refine ⟨by rw [decBits_take hj], hidx.trans (List.length_take_of_le hj), by omega, ?_⟩
    rw [hacc, symbolStream_take hj, List.drop_take]

end Sys2Proof.Machine
end

section
/-! PROOFS. The time of the generator: the exact difference and what each policy admits of it (R101), and the Counter as
a mathematical floor within 64 bits (R102 to R104). -/

namespace Sys2Proof.Machine

/-! ## The Counter as a floor (R102, R104) -/

section Counter

variable {d step : Int}

/-- The Counter is the one number whose time step the difference lies in. -/
theorem counter_eq_iff (hstep : 0 < step) {c : Int} : counter d step = c ↔ c * step ≤ d ∧ d < (c + 1) * step := by
  rw [counter, Int.fdiv_eq_ediv_of_nonneg d hstep.le, ← Int.le_ediv_iff_mul_le hstep,
    ← Int.ediv_lt_iff_lt_mul hstep]
  omega

theorem counter_floor (hstep : 0 < step) :
    counter d step * step ≤ d ∧ d < (counter d step + 1) * step :=
  (counter_eq_iff hstep).1 rfl

/-- Dividing by a positive step does not leave the range of the difference. -/
theorem counter_bounds (hstep : 0 < step) (hlo : -2 ^ 63 ≤ d) (hhi : d < 2 ^ 63) :
    -2 ^ 63 ≤ counter d step ∧ counter d step < 2 ^ 63 := by
  rw [counter, Int.fdiv_eq_ediv_of_nonneg d hstep.le, Int.le_ediv_iff_mul_le hstep, Int.ediv_lt_iff_lt_mul hstep]
  omega

/-- The 64-bit register holds the Counter itself. -/
theorem toInt_ofInt_counter (hstep : 0 < step) (hlo : -2 ^ 63 ≤ d) (hhi : d < 2 ^ 63) :
    (BitVec.ofInt 64 (counter d step)).toInt = counter d step := by
  obtain ⟨hclo, hchi⟩ := counter_bounds hstep hlo hhi
  exact BitVec.toInt_ofInt_eq_self (by decide) hclo hchi

/-- The source's method rounds a negative difference down by taking `step - 1` off it first (R103). -/
theorem counterTwoBranch_eq_counter (hstep : 0 < step) : counterTwoBranch d step = counter d step := by
  unfold counterTwoBranch
  split
  case isTrue hd => rw [counter, Int.tdiv_eq_ediv_of_nonneg hd, Int.fdiv_eq_ediv_of_nonneg d hstep.le]
  case isFalse hd =>
    have hneg : (d - (step - 1)).tdiv step = -counter (step - 1 - d) step := by
      rw [← neg_sub, Int.neg_tdiv, Int.tdiv_eq_ediv_of_nonneg (by omega), counter,
        Int.fdiv_eq_ediv_of_nonneg _ hstep.le]
    obtain ⟨hle, hlt⟩ := counter_floor (d := step - 1 - d) hstep
    rw [hneg, eq_comm, counter_eq_iff hstep]
    constructor <;> linarith

/-- Only the least difference, counted in single seconds, gives the least Counter. -/
theorem eq_of_counter_eq_min (hstep : 0 < step) (hlo : -2 ^ 63 ≤ d) (h : counter d step = -2 ^ 63) :
    d = -2 ^ 63 ∧ step = 1 := by
  obtain ⟨-, hlt⟩ := (counter_eq_iff hstep).1 h
  omega

end Counter

/-- Settles O46: the Counter is the floor by its definition, and the other clauses follow from the floor's bounds. -/
theorem counterIsFloor : Obligations.CounterIsFloor := by
  intro d step hstep hlo hhi
  have hlt : d < 2 ^ 63 := by omega
  obtain ⟨hle, hfloor⟩ := counter_floor (d := d) hstep
  obtain ⟨hclo, hchi⟩ := counter_bounds hstep hlo hlt
  exact ⟨counterTwoBranch_eq_counter hstep, hle, hfloor, hclo, Int.le_sub_one_of_lt hchi,
    eq_of_counter_eq_min hstep hlo, toInt_ofInt_counter hstep hlo hlt⟩

/-! ## The difference (R101) -/

/-- The 65-bit register holds the difference of two 64-bit times exactly. -/
theorem toInt_ofInt_exactDiff (b : Bound) : (BitVec.ofInt 65 (exactDiff b)).toInt = exactDiff b := by
  have hnow := BitVec.le_toInt b.now
  have hnow' := BitVec.toInt_lt (x := b.now)
  have hstart := BitVec.le_toInt b.start
  have hstart' := BitVec.toInt_lt (x := b.start)
  unfold exactDiff
  exact BitVec.toInt_ofInt_eq_self (by decide) (by omega) (by omega)

theorem not_fitsTime_iff {d : Int} : fitsTime d = false ↔ d < -2 ^ 63 ∨ 2 ^ 63 - 1 < d := by
  rw [← Bool.not_eq_true, fitsTime_iff]
  omega

/-- The policy `fault` admits no difference outside 64 bits. -/
theorem admitDiff_fault_eq_none_iff {d : Int} : admitDiff .fault d = none ↔ fitsTime d = false := by
  cases h : fitsTime d <;> simp [admitDiff, h]

/-- The policy `wrap` reads the difference modulo 2^64 as signed, which a difference that fits does not change. -/
theorem admitDiff_wrap (d : Int) : admitDiff .wrap d = some (BitVec.ofInt 64 d).toInt := by
  cases h : fitsTime d with
  | false => simp [admitDiff, h]
  | true =>
    obtain ⟨hlo, hhi⟩ := (fitsTime_iff d).1 h
    rw [admitDiff_of_fits _ h, BitVec.toInt_ofInt_eq_self (by decide) hlo hhi]

/-- The signed reading of 64 bits is the one number of their range that is congruent to what they were made of. -/
theorem toInt_ofInt_of_dvd {d e : Int} (hlo : -2 ^ 63 ≤ e) (hhi : e < 2 ^ 63) (hdvd : 2 ^ 64 ∣ d - e) :
    (BitVec.ofInt 64 d).toInt = e := by
  rw [BitVec.toInt_ofInt, Int.bmod_eq_iff (by decide)]
  refine ⟨hlo, hhi, ?_⟩
  rw [dvd_sub_comm]
  exact hdvd

/-- With the default start no time is out of range (R101). -/
theorem fitsTime_sub_defStart (now : Time) : fitsTime (now.toInt - Config.defStart.toInt) = true := by
  have hzero : Config.defStart.toInt = 0 := rfl
  rw [fitsTime_iff, hzero, Int.sub_zero]
  exact ⟨BitVec.le_toInt now, BitVec.toInt_lt⟩

end Sys2Proof.Machine
end

section
/-! PROOFS. The truncation of a digest of any length (R109, R110, R111). -/

namespace Sys2Proof.Machine

/-- `OFF` is the low nibble of the last byte, and 0 where there is none. -/
theorem truncOffset_toNat (dig : List Byte) :
    (truncOffset dig).toNat = (dig.getD (dig.length - 1) 0).toNat % 16 := by
  rw [truncOffset, BitVec.toNat_setWidth, List.getLast?_eq_getElem?, List.getD_eq_getElem?_getD]

theorem windowFits_iff {dig : List Byte} :
    windowFits dig = true ↔ 1 ≤ dig.length ∧ (truncOffset dig).toNat + 4 ≤ dig.length := by
  rw [windowFits, Bool.and_eq_true, decide_eq_true_eq, Bool.not_eq_true', List.isEmpty_eq_false_iff,
    Nat.one_le_iff_ne_zero, ne_eq, ne_eq, List.length_eq_zero_iff]

/-- A byte appended to a word is its last base-256 digit. -/
theorem toNat_append_byte {n : Nat} (x : BitVec n) (c : Byte) : (x ++ c).toNat = 256 * x.toNat + c.toNat := by
  rw [BitVec.toNat_append, ← Nat.shiftLeft_add_eq_or_of_lt c.isLt, Nat.shiftLeft_eq, mul_comm]

/-- The window is the four bytes from `OFF` up, most significant first. -/
theorem window_toNat (dig : List Byte) :
    let d := fun j => (dig.getD j 0).toNat
    let off := (truncOffset dig).toNat
    (window dig).toNat = numberOf 256 [d off, d (off + 1), d (off + 2), d (off + 3)] := by
  simp only [window, toNat_append_byte, numberOf, List.foldl_cons, List.foldl_nil, Nat.mul_zero, Nat.zero_add]

/-- `TH` is the window without its top bit. -/
theorem truncatedHash_toNat (dig : List Byte) : (truncatedHash dig).toNat = (window dig).toNat % 2 ^ 31 := by
  have hmask : (0x7FFFFFFF : BitVec 32).toNat = 2 ^ 31 - 1 := rfl
  rw [truncatedHash, BitVec.toNat_setWidth, BitVec.toNat_and, hmask, Nat.and_two_pow_sub_one_eq_mod, Nat.mod_mod]

section LastSteps

variable (g : GenRegs) (codec : CodecRegs) (n : Nat) (dig : List Byte)

@[simp] theorem genPin_gen_diff : (genPin g codec n dig).gen.diff = g.diff := by unfold genPin; split <;> rfl

@[simp] theorem genPin_gen_ctr : (genPin g codec n dig).gen.ctr = g.ctr := by unfold genPin; split <;> rfl

@[simp] theorem genPin_gen_chal : (genPin g codec n dig).gen.chal = g.chal := by unfold genPin; split <;> rfl

@[simp] theorem genPin_gen_key : (genPin g codec n dig).gen.key = g.key := by unfold genPin; split <;> rfl

@[simp] theorem genPin_gen_dig : (genPin g codec n dig).gen.dig = Buffer.ofBytes dig := by
  unfold genPin; split <;> rfl

@[simp] theorem genPin_gen_off : (genPin g codec n dig).gen.off = truncOffset dig := by unfold genPin; split <;> rfl

variable {dig}

theorem genPin_gen_th (h : windowFits dig = true) : (genPin g codec n dig).gen.th = truncatedHash dig := by
  rw [genPin, if_pos h]

theorem genPin_gen_pinval (h : windowFits dig = true) :
    (genPin g codec n dig).gen.pinval = BitVec.ofNat 30 (pinValue (truncatedHash dig) n) := by
  rw [genPin, if_pos h]

theorem genPin_result_of_fits (h : windowFits dig = true) :
    (genPin g codec n dig).result = .ok (formatPin (pinValue (truncatedHash dig) n) n) := by
  rw [genPin_result, if_pos h]

/-- `DigestTooShort` says that the window does not fit, and nothing else (R110). -/
theorem genPin_digestTooShort_iff :
    (genPin g codec n dig).result = .error .digestTooShort ↔ ¬ windowFits dig = true := by
  rw [genPin_result]
  split <;> simp_all

end LastSteps

/-- Settles O52: the error is the window's, the offset and the hash are read off the digest's bytes. -/
theorem truncationOfDigest : Obligations.TruncationOfDigest := by
  intro g codec n dig L d off run
  have hoff : (truncOffset dig).toNat = off := truncOffset_toNat dig
  have hlt : off < 16 := Nat.mod_lt _ (by decide)
  have herr : run.result = .error .digestTooShort ↔ ¬(1 ≤ L ∧ off + 4 ≤ L) := by
    rw [genPin_digestTooShort_iff, windowFits_iff, hoff]
  have hth (h1 : 1 ≤ L) (h4 : off + 4 ≤ L) :
      run.gen.th.toNat = numberOf 256 [d off, d (off + 1), d (off + 2), d (off + 3)] % 2 ^ 31 := by
    have hfits : windowFits dig = true := windowFits_iff.2 ⟨h1, hoff ▸ h4⟩
    rw [genPin_gen_th g codec n hfits, truncatedHash_toNat, window_toNat, hoff]
  refine ⟨fun h => herr.2 (by omega), fun _ => ?_, fun _ _ => herr.2 (by omega),
    fun h1 h4 => ⟨herr.not.2 (by omega), hth h1 h4⟩, fun _ => herr.2 (by omega), fun _ => herr.not.2 (by omega)⟩
  rw [genPin_gen_off, hoff]

end Sys2Proof.Machine
end

section
/-! PROOFS. The course of a generator operation (R120): what each of its steps makes of the bound parameters, and from
that the errors of the steps, each reported exactly where its rule says (R98 to R101, R110). -/

namespace Sys2Proof.Machine

/-! ## The steps, one equation for each way on -/

/-- The generator's registers after step 2, with `DIFF` exact. -/
def diffRegs (b : Bound) : GenRegs := { genBind b with diff := BitVec.ofInt 65 (exactDiff b) }

/-- `CTR` for an admitted difference `d` (R102). -/
def counterWord (b : Bound) (d : Int) : Time := BitVec.ofInt 64 (counter d b.step.toInt)

/-- The generator's registers after step 3, for an admitted difference `d`. -/
def timeRegs (b : Bound) (d : Int) : GenRegs :=
  { diffRegs b with ctr := counterWord b d, chal := Buffer.ofBytes (challenge (counterWord b d)) }

section Course

variable {P : Params} {algok : Bool} {b : Bound} {text : List Byte}

theorem generateRun_of_genCheck_error {e : Error} (h : genCheck algok b = some e) :
    generateRun P algok b text = ⟨CodecRegs.zero, genBind b, .error e⟩ := by
  simp only [generateRun, h]

theorem generateRun_of_not_admitted (hcheck : genCheck algok b = none)
    (hdiff : admitDiff P.overflow (exactDiff b) = none) :
    generateRun P algok b text = ⟨CodecRegs.zero, diffRegs b, .error .counterOverflow⟩ := by
  simp only [generateRun, hcheck, genTime, hdiff, diffRegs]

/-- A request that passes steps 0 to 2 is answered by the steps from 4 on, for its Counter (R105). -/
theorem generateRun_of_admitted {d : Int} (hcheck : genCheck algok b = none)
    (hdiff : admitDiff P.overflow (exactDiff b) = some d) :
    generateRun P algok b text =
      genDigest P (timeRegs b d) b.pin.toNat (challenge (counterWord b d)) text := by
  simp only [generateRun, hcheck, genTime, hdiff, timeRegs, diffRegs, counterWord]

variable {g : GenRegs} {n : Nat} {chal : List Byte}

theorem genDigest_of_dec_error {c : Byte} (h : dec P text = .error c) :
    genDigest P g n chal text = ⟨decRegs P text, g, .error (.invalidCharacter c)⟩ := by
  simp only [genDigest, h]

theorem genDigest_of_dec_ok {key : List Byte} (h : dec P text = .ok key) :
    genDigest P g n chal text =
      genPin { g with key := Buffer.ofBytes key } (decRegs P text) n (P.hmac key chal) := by
  simp only [genDigest, h]

@[simp] theorem genDigest_gen_diff : (genDigest P g n chal text).gen.diff = g.diff := by
  rcases h : dec P text with c | key
  · rw [genDigest_of_dec_error h]
  · rw [genDigest_of_dec_ok h, genPin_gen_diff]

@[simp] theorem genDigest_gen_ctr : (genDigest P g n chal text).gen.ctr = g.ctr := by
  rcases h : dec P text with c | key
  · rw [genDigest_of_dec_error h]
  · rw [genDigest_of_dec_ok h, genPin_gen_ctr]

/-- Steps 4 to 8 report the decoder's error or `DigestTooShort`. -/
theorem error_of_genDigest {e : Error} (h : (genDigest P g n chal text).result = .error e) :
    (∃ c, e = .invalidCharacter c) ∨ e = .digestTooShort := by
  rcases hdec : dec P text with c | key
  · rw [genDigest_of_dec_error hdec, Result.error.injEq] at h
    exact .inl ⟨c, h.symm⟩
  · rw [genDigest_of_dec_ok hdec, genPin_result] at h
    split at h <;> cases h
    exact .inr rfl

end Course

/-! ## The errors of the steps -/

/-- The errors of steps 0 to 2a (R98, R99, R100). -/
def Error.isCheck (e : Error) : Prop := e = .unsupportedAlgorithm ∨ e = .invalidPinLength ∨ e = .invalidTimeStep

theorem isCheck_of_genCheck {algok : Bool} {b : Bound} {e : Error} (h : genCheck algok b = some e) : e.isCheck := by
  unfold genCheck at h
  split_ifs at h <;> cases h
  · exact .inl rfl
  · exact .inr (.inl rfl)
  · exact .inr (.inr rfl)

/-- With the primitive present, the two checks that are left, in terms of the legal values. -/
theorem genCheck_true (b : Bound) :
    genCheck true b =
      if ¬(1 ≤ b.pin.toInt ∧ b.pin.toInt ≤ 9) then some .invalidPinLength
      else if b.step.toInt ≤ 0 then some .invalidTimeStep else none := by
  rw [genCheck, if_neg (by decide)]
  exact if_congr (by omega) rfl rfl

theorem genCheck_invalidPinLength_iff {b : Bound} :
    genCheck true b = some .invalidPinLength ↔ ¬(1 ≤ b.pin.toInt ∧ b.pin.toInt ≤ 9) := by
  rw [genCheck_true]
  split_ifs <;> simp_all

theorem genCheck_invalidTimeStep_iff {b : Bound} (hpin : 1 ≤ b.pin.toInt ∧ b.pin.toInt ≤ 9) :
    genCheck true b = some .invalidTimeStep ↔ b.step.toInt ≤ 0 := by
  rw [genCheck_true, if_neg (not_not.2 hpin)]
  split_ifs <;> simp_all

section Errors

variable {P : Params} {algok : Bool} {b : Bound} {text : List Byte}

/-- No step after the checks reports an error of theirs. -/
theorem generateRun_result_eq_check_iff {e : Error} (he : e.isCheck) :
    (generateRun P algok b text).result = .error e ↔ genCheck algok b = some e := by
  rcases hcheck : genCheck algok b with _ | e'
  case some => rw [generateRun_of_genCheck_error hcheck, Result.error.injEq, Option.some.injEq]
  refine iff_of_false (fun hresult => ?_) nofun
  rcases hdiff : admitDiff P.overflow (exactDiff b) with _ | d
  · rw [generateRun_of_not_admitted hcheck hdiff, Result.error.injEq] at hresult
    subst hresult
    simp [Error.isCheck] at he
  · rw [generateRun_of_admitted hcheck hdiff] at hresult
    obtain ⟨c, rfl⟩ | rfl := error_of_genDigest hresult <;> simp [Error.isCheck] at he

/-- Past the checks, `CounterOverflow` says that the difference is not admitted, and nothing else. -/
theorem generateRun_counterOverflow_iff (hcheck : genCheck algok b = none) :
    (generateRun P algok b text).result = .error .counterOverflow ↔
      admitDiff P.overflow (exactDiff b) = none := by
  rcases hdiff : admitDiff P.overflow (exactDiff b) with _ | d
  · exact iff_of_true (by rw [generateRun_of_not_admitted hcheck hdiff]) rfl
  · refine iff_of_false (fun hresult => ?_) nofun
    rw [generateRun_of_admitted hcheck hdiff] at hresult
    simpa using error_of_genDigest hresult

/-- Where `DigestTooShort` is reported, some digest of the primitive was too short for its window. -/
theorem generateRun_digestTooShort (h : (generateRun P algok b text).result = .error .digestTooShort) :
    ∃ key msg, ¬ windowFits (P.hmac key msg) = true := by
  rcases hcheck : genCheck algok b with _ | e
  case some =>
    rw [generateRun_of_genCheck_error hcheck, Result.error.injEq] at h
    simpa [h, Error.isCheck] using isCheck_of_genCheck hcheck
  rcases hdiff : admitDiff P.overflow (exactDiff b) with _ | d
  case none =>
    rw [generateRun_of_not_admitted hcheck hdiff] at h
    cases h
  rw [generateRun_of_admitted hcheck hdiff] at h
  rcases hdec : dec P text with c | key
  · rw [genDigest_of_dec_error hdec] at h
    cases h
  · rw [genDigest_of_dec_ok hdec, genPin_digestTooShort_iff] at h
    exact ⟨_, _, h⟩

/-- Past the checks `DIFF` holds the exact difference, admitted or not. -/
theorem generateRun_gen_diff (hcheck : genCheck algok b = none) :
    (generateRun P algok b text).gen.diff = BitVec.ofInt 65 (exactDiff b) := by
  rcases hdiff : admitDiff P.overflow (exactDiff b) with _ | d
  · rw [generateRun_of_not_admitted hcheck hdiff, diffRegs]
  · rw [generateRun_of_admitted hcheck hdiff, genDigest_gen_diff, timeRegs, diffRegs]

end Errors

/-- The status tells which error was reported, but for its character. -/
theorem Response.of_status_eq_iff {result : Result} {e : Error} (he : e.status ≠ .invalidCharacter) :
    (Response.of result).status = e.status ↔ result = .error e := by
  refine ⟨fun h => ?_, fun h => by rw [h, Response.of_error, Response.raise_status]⟩
  cases result with
  | ok pin => cases e <;> cases h
  | error e' =>
    cases e' with
    | invalidCharacter c => exact absurd h.symm he
    | _ => cases e <;> cases h; rfl

/-! ## The statements about both operations -/

/-- Each generator operation completes the run of its bound parameters, for its own source of the time (R116). -/
theorem exec_generator_eq_complete {dp dt ds : Bool} {s t : State}
    (h : exec (.totpgen dp dt ds) s = .next t ∨ exec (.totpgenw dp dt ds) s = .next t) :
    ∃ now, t = s.complete
      (generateRun Config.params s.algok (bindParams now dp dt ds s.req) s.req.src.bytes) := by
  rw [exec_eq_next_iff, exec_eq_next_iff] at h
  obtain h | h := h
  · exact ⟨s.req.now, h⟩
  · exact ⟨s.req.wallclk, h⟩

/-- The default PIN length is legal, so only a PIN length from the port can be illegal (R48, R99). -/
theorem bindParams_pin_legal_iff {now : Time} {dp dt ds : Bool} {r : Request} :
    (1 ≤ (bindParams now dp dt ds r).pin.toInt ∧ (bindParams now dp dt ds r).pin.toInt ≤ 9) ↔
      (dp = false → 1 ≤ r.pinlen.toInt ∧ r.pinlen.toInt ≤ 9) := by
  cases dp with
  | false => simp [bindParams]
  | true => exact iff_of_true (by decide : 1 ≤ Config.defPinLen.toInt ∧ Config.defPinLen.toInt ≤ 9) nofun

/-- The default step is positive, so only a step from the port can be no step (R48, R100). -/
theorem bindParams_step_nonpos_iff {now : Time} {dp dt ds : Bool} {r : Request} :
    (bindParams now dp dt ds r).step.toInt ≤ 0 ↔ dt = false ∧ r.step.toInt ≤ 0 := by
  cases dt with
  | false => simp [bindParams]
  | true => exact iff_of_false (by decide : ¬ Config.defStep.toInt ≤ 0) nofun

/-- Settles O41: the first check looks at `ALGOK` alone. -/
theorem unsupportedWithoutPrimitive : Obligations.UnsupportedWithoutPrimitive := by
  intro dp dt ds s halgok
  have hrun (b : Bound) (text : List Byte) :
      (generateRun Config.params s.algok b text).result = .error .unsupportedAlgorithm := by
    rw [halgok, generateRun_of_genCheck_error rfl]
  exact ⟨⟨_, exec_totpgen dp dt ds s, by simp only [State.complete_resp, hrun]; exact ⟨rfl, rfl, rfl⟩⟩,
    ⟨_, exec_totpgenw dp dt ds s, by simp only [State.complete_resp, hrun]; exact ⟨rfl, rfl, rfl⟩⟩⟩

/-- Settles O42: the check of the PIN length is the only source of its error. -/
theorem pinLengthChecked : Obligations.PinLengthChecked := by
  intro dp dt ds s t halgok h
  obtain ⟨now, rfl⟩ := exec_generator_eq_complete h
  rw [State.complete_resp, halgok]
  refine (Response.of_status_eq_iff (e := .invalidPinLength) nofun).trans ?_
  rw [generateRun_result_eq_check_iff (.inr (.inl rfl)), genCheck_invalidPinLength_iff, bindParams_pin_legal_iff,
    Classical.not_imp]

/-- Settles O43: past the check of the PIN length, that of the step is the only source of its error. -/
theorem timeStepChecked : Obligations.TimeStepChecked := by
  intro dp dt ds s t halgok hpin h
  obtain ⟨now, rfl⟩ := exec_generator_eq_complete h
  rw [State.complete_resp, halgok]
  constructor
  · refine (Response.of_status_eq_iff (e := .invalidTimeStep) nofun).trans ?_
    rw [generateRun_result_eq_check_iff (.inr (.inr rfl)),
      genCheck_invalidTimeStep_iff (bindParams_pin_legal_iff.2 hpin), bindParams_step_nonpos_iff]
  · intro herr
    obtain ⟨-, hempty, -⟩ := Response.of_wellFormed
      (generateRun Config.params true (bindParams now dp dt ds s.req) s.req.src.bytes).result
    rw [hempty (by simp [herr])]
    rfl

/-- Settles O44: `DIFF` is exact, each policy admits what its rule says, and the Counter of a wrapped difference is that
of the one number of 64 bits congruent to it. -/
theorem differenceOutside64Bits : Obligations.DifferenceOutside64Bits := by
  refine ⟨fun P b text h1 h9 hstep => ?_, fitsTime_sub_defStart⟩
  have hcheck : genCheck true b = none := (genCheck_eq_none_iff true b).2 ⟨rfl, h1, h9, hstep⟩
  refine ⟨?_, fun hfault => ?_, fun hwrap => ⟨?_, fun _ e hlo hhi hdvd => ?_⟩⟩
  · rw [generateRun_gen_diff hcheck, toInt_ofInt_exactDiff]
    rfl
  · rw [generateRun_counterOverflow_iff hcheck, hfault, admitDiff_fault_eq_none_iff, not_fitsTime_iff]
    rfl
  · rw [ne_eq, generateRun_counterOverflow_iff hcheck, hwrap, admitDiff_wrap]
    nofun
  · have hdiff : admitDiff P.overflow (exactDiff b) = some e := by
      rw [hwrap, admitDiff_wrap]
      exact congrArg some (toInt_ofInt_of_dvd hlo hhi hdvd)
    rw [generateRun_of_admitted hcheck hdiff, genDigest_gen_ctr]
    exact toInt_ofInt_counter hstep hlo hhi

/-- Settles O45: past the checks, the two operations end as the policy says of the difference. -/
theorem counterOverflowReported : Obligations.CounterOverflowReported := by
  refine ⟨fun i s => by rw [exec_eq_execWith], fun P dp dt ds s i b halgok hi h1 h9 hstep hout => ?_⟩
  have hcheck : genCheck s.algok b = none := (genCheck_eq_none_iff _ b).2 ⟨halgok, h1, h9, hstep⟩
  have hexec : execWith P i s = .next (s.complete (generateRun P s.algok b s.req.src.bytes)) := by
    obtain ⟨rfl, rfl⟩ | ⟨rfl, rfl⟩ := hi <;> rfl
  refine ⟨_, hexec, fun hfault => ?_, fun hwrap => ?_⟩
  · have hdiff : admitDiff P.overflow (exactDiff b) = none := by
      rw [hfault, admitDiff_fault_eq_none_iff, not_fitsTime_iff]
      exact hout.imp_right Int.sub_one_lt_of_le
    rw [generateRun_of_not_admitted hcheck hdiff]
    exact ⟨rfl, rfl, rfl⟩
  · refine (Response.of_status_eq_iff (e := .counterOverflow) nofun).not.2 ?_
    rw [generateRun_counterOverflow_iff hcheck, hwrap, admitDiff_wrap]
    nofun

/-- With digests that always reach, as the configured primitive's 20 bytes do, truncation never fails (R110). -/
theorem opRun_ne_digestTooShort {P : Params} (hlen : ∀ key msg, 19 ≤ (P.hmac key msg).length) (algok : Bool)
    (r : Request) (i : Instr) : (opRun P algok r i).result ≠ .error .digestTooShort := by
  have hgen (b : Bound) : (generateRun P algok b r.src.bytes).result ≠ .error .digestTooShort := by
    intro h
    obtain ⟨key, msg, hshort⟩ := generateRun_digestTooShort h
    exact hshort (windowFits_of_length (hlen key msg))
  cases i with
  | b32enc => obtain h | ⟨text, h⟩ := encodeRun_result r.src <;> simp [opRun, h]
  | b32dec => obtain ⟨c, -, h⟩ | ⟨bytes, h⟩ := decodeRun_result P r.src <;> simp [opRun, h]
  | totpgen dp dt ds => exact hgen _
  | totpgenw dp dt ds => exact hgen _

/-- Settles O53: the configured digest has 20 bytes. -/
theorem configuredDigestNeverTooShort : Obligations.ConfiguredDigestNeverTooShort := by
  intro i s t h
  rw [exec_eq_next_iff] at h
  subst h
  refine (Response.of_status_eq_iff (e := .digestTooShort) nofun).not.2 (opRun_ne_digestTooShort ?_ _ _ i)
  simp

/-! ## The call of the primitive (R108, R133) -/

section Call

variable {P : Params} {algok : Bool} {b : Bound} {text : List Byte} {other : List Byte → List Byte → List Byte}

theorem generateRun_of_dec_error {d : Int} {c : Byte} (hcheck : genCheck algok b = none)
    (hdiff : admitDiff P.overflow (exactDiff b) = some d) (hdec : dec P text = .error c) :
    generateRun P algok b text = ⟨decRegs P text, timeRegs b d, .error (.invalidCharacter c)⟩ := by
  rw [generateRun_of_admitted hcheck hdiff, genDigest_of_dec_error hdec]

/-- An operation that reaches step 5 goes on from the digest of its key and its Challenge. -/
theorem generateRun_of_reached {d : Int} {key : List Byte} (hcheck : genCheck algok b = none)
    (hdiff : admitDiff P.overflow (exactDiff b) = some d) (hdec : dec P text = .ok key) :
    generateRun P algok b text =
      genPin { timeRegs b d with key := Buffer.ofBytes key } (decRegs P text) b.pin.toNat
        (P.hmac key (challenge (counterWord b d))) := by
  rw [generateRun_of_admitted hcheck hdiff, genDigest_of_dec_ok hdec]

/-- Two primitives give the same run unless the operation reaches step 5 and they differ at its key and Challenge. -/
theorem generateRun_set_hmac
    (h : ∀ d key, genCheck algok b = none → admitDiff P.overflow (exactDiff b) = some d → dec P text = .ok key →
      other key (challenge (counterWord b d)) = P.hmac key (challenge (counterWord b d))) :
    generateRun { P with hmac := other } algok b text = generateRun P algok b text := by
  rcases hcheck : genCheck algok b with _ | e
  case some => rw [generateRun_of_genCheck_error hcheck, generateRun_of_genCheck_error hcheck]
  rcases hdiff : admitDiff P.overflow (exactDiff b) with _ | d
  case none =>
    rw [generateRun_of_not_admitted hcheck hdiff]
    exact generateRun_of_not_admitted hcheck hdiff
  rcases hdec : dec P text with c | key
  case error =>
    rw [generateRun_of_dec_error hcheck hdiff hdec]
    exact generateRun_of_dec_error (P := { P with hmac := other }) hcheck hdiff hdec
  rw [generateRun_of_reached hcheck hdiff hdec, ← h d key hcheck hdiff hdec]
  exact generateRun_of_reached (P := { P with hmac := other }) hcheck hdiff hdec

end Call

/-- Settles O55: an operation that reaches step 5 holds the arguments of its call in `KEY` and `CHAL`, and ends with a
PIN or with `DigestTooShort`. -/
theorem primitiveCalledOnKeyAndChallenge : Obligations.PrimitiveCalledOnKeyAndChallenge := by
  refine fun P other algok b text => ⟨fun hagree => generateRun_set_hmac fun d key hcheck hdiff hdec => ?_,
    fun ⟨e, hresult, he⟩ => generateRun_set_hmac fun d key hcheck hdiff hdec => ?_⟩
  · rw [generateRun_of_reached hcheck hdiff hdec, genPin_gen_key, genPin_gen_chal] at hagree
    simpa [timeRegs] using hagree.symm
  · rw [generateRun_of_reached hcheck hdiff hdec, genPin_result] at hresult
    split at hresult <;> cases hresult
    exact absurd rfl he

end Sys2Proof.Machine
end

section
/-! PROOFS. The response of a generator operation on admissible parameters: the secret is the decoder's (R106), the PIN
is that of the Counter's digest (R120), and the Counter is all of the time that it depends on (R116, R117, R119). -/

namespace Sys2Proof.Machine

/-! ## Admissible parameters -/

section Admissible

variable {b : Bound} (hb : b.admissible)

include hb

theorem Bound.admissible.step_pos : 0 < b.step.toInt := by
  obtain ⟨-, -, hstep, -, -⟩ := hb
  exact hstep

theorem Bound.admissible.genCheck_eq_none : genCheck true b = none := by
  obtain ⟨h1, h9, hstep, -, -⟩ := hb
  exact (genCheck_eq_none_iff true b).2 ⟨rfl, h1, h9, hstep⟩

theorem Bound.admissible.admitDiff_eq_some (policy : OverflowPolicy) :
    admitDiff policy (exactDiff b) = some (exactDiff b) := by
  obtain ⟨-, -, -, hlo, hhi⟩ := hb
  exact admitDiff_of_fits policy ((fitsTime_iff _).2 ⟨hlo, hhi⟩)

/-- `CTR` holds the Counter itself (R104). -/
theorem Bound.admissible.counterWord_toInt :
    (counterWord b (exactDiff b)).toInt = counter (exactDiff b) b.step.toInt := by
  obtain ⟨-, -, hstep, hlo, hhi⟩ := hb
  exact toInt_ofInt_counter hstep hlo hhi

/-- `CTR` is the floor of the exact difference (R102). -/
theorem Bound.admissible.counterWord_floor :
    (counterWord b (exactDiff b)).toInt * b.step.toInt ≤ exactDiff b ∧
      exactDiff b < ((counterWord b (exactDiff b)).toInt + 1) * b.step.toInt := by
  rw [hb.counterWord_toInt]
  exact counter_floor hb.step_pos

/-- A legal PIN length is the same number signed and unsigned. -/
theorem Bound.admissible.pin_toNat : b.pin.toNat = b.pin.toInt.toNat ∧ b.pin.toNat ≤ 9 := by
  obtain ⟨h1, h9, -, -, -⟩ := hb
  have hle := pinLen_toNat_le h1 h9
  refine ⟨?_, hle⟩
  rw [BitVec.toInt_eq_toNat_of_lt (by omega), Int.toNat_natCast]

variable {P : Params} {text key : List Byte}

theorem Bound.admissible.generateRun_eq :
    generateRun P true b text = genDigest P (timeRegs b (exactDiff b)) b.pin.toNat
      (challenge (counterWord b (exactDiff b))) text :=
  generateRun_of_admitted hb.genCheck_eq_none (hb.admitDiff_eq_some _)

theorem Bound.admissible.generateRun_of_ok (hdec : dec P text = .ok key) :
    generateRun P true b text =
      genPin { timeRegs b (exactDiff b) with key := Buffer.ofBytes key } (decRegs P text) b.pin.toNat
        (P.hmac key (challenge (counterWord b (exactDiff b)))) :=
  generateRun_of_reached hb.genCheck_eq_none (hb.admitDiff_eq_some _) hdec

end Admissible

/-! ## The secret (R106) -/

/-- What `B32DEC` shows of the decode of its source. -/
theorem dec_of_exec_b32dec {s u : State} (h : exec .b32dec s = .next u) :
    (∃ c, dec Config.params s.req.src.bytes = .error c ∧ u.resp = Response.raise (.invalidCharacter c)) ∨
      ∃ key, dec Config.params s.req.src.bytes = .ok key ∧ u.resp = Response.return key := by
  rcases hdec : dec Config.params s.req.src.bytes with c | key
  · obtain ⟨t, ht, hresp⟩ := exec_b32dec_of_error hdec
    cases ht.symm.trans h
    exact .inl ⟨c, rfl, hresp⟩
  · obtain ⟨t, ht, hresp⟩ := exec_b32dec_of_ok hdec
    cases ht.symm.trans h
    exact .inr ⟨key, rfl, hresp⟩

/-- Settles O48: the decoder's outcome is the one `B32DEC` shows; an error ends the operation, and the bytes are put in
`KEY`. -/
theorem secretDecodedAsB32dec : Obligations.SecretDecodedAsB32dec := by
  intro dp dt ds s u b halgok hu hb
  have hresp {t : State} (ht : (b = bindParams s.req.now dp dt ds s.req ∧ exec (.totpgen dp dt ds) s = .next t) ∨
      (b = bindParams s.req.wallclk dp dt ds s.req ∧ exec (.totpgenw dp dt ds) s = .next t)) :
      t.resp = Response.of (generateRun Config.params true b s.req.src.bytes).result := by
    rw [exec_eq_next_iff, exec_eq_next_iff] at ht
    obtain ⟨rfl, rfl⟩ | ⟨rfl, rfl⟩ := ht <;> rw [State.complete_resp, opRun, halgok]
  obtain ⟨c, hdec, hu⟩ | ⟨key, hdec, hu⟩ := dec_of_exec_b32dec hu
  · have hnotOk : u.resp.status ≠ .ok := by rw [hu]; nofun
    refine ⟨fun t ht => ⟨fun _ => ?_, fun hok => absurd hok hnotOk⟩, fun _ other => ?_, fun hok => absurd hok hnotOk⟩
    · rw [hresp ht, hb.generateRun_eq, genDigest_of_dec_error hdec, hu, Response.of_error]
    · refine generateRun_set_hmac fun d key _ _ hkey => ?_
      cases hdec.symm.trans hkey
  · have hnotError : u.resp.status ≠ .invalidCharacter := by rw [hu]; nofun
    refine ⟨fun t ht => ⟨fun herr => absurd herr hnotError, fun _ herr => ?_⟩, fun herr => absurd herr hnotError,
      fun _ => ?_⟩
    · rw [hresp ht] at herr
      cases hdec.symm.trans (generateRun_invalidCharacter (Response.of_status_invalidCharacter herr))
    · rw [hb.generateRun_of_ok hdec, genPin_gen_key, Buffer.bytes_ofBytes, hu, Response.return_res,
        Buffer.bytes_ofBytes]

/-! ## The PIN (R120) -/

/-- `PINVAL` is the hash modulo the power of ten, and its register holds it for a legal PIN length (R112). -/
theorem genPin_gen_pinval_toNat (g : GenRegs) (codec : CodecRegs) {n : Nat} {dig : List Byte}
    (hfits : windowFits dig = true) (hn : n ≤ 9) :
    (genPin g codec n dig).gen.pinval.toNat = pinValue (truncatedHash dig) n := by
  have hlt := pinValue_lt (truncatedHash dig) hn
  rw [genPin_gen_pinval g codec n hfits, BitVec.toNat_ofNat]
  exact Nat.mod_eq_of_lt (by omega)

/-- Steps 6 to 8 deliver the PIN of the configured primitive's digest when the registers of steps 2 to 4 are in place. -/
theorem pinDelivered_complete_genPin {s : State} {g : GenRegs} {codec : CodecRegs} {b : Bound} {key : List Byte}
    {n : Nat} (hn : n = b.pin.toInt.toNat) (hn9 : n ≤ 9) (hdiff : g.diff.toInt = exactDiff b)
    (hlo : g.ctr.toInt * b.step.toInt ≤ exactDiff b) (hhi : exactDiff b < (g.ctr.toInt + 1) * b.step.toInt)
    (hchal : g.chal = Buffer.ofBytes (challenge g.ctr)) (hkey : g.key = Buffer.ofBytes key) :
    PinDelivered (s.complete (genPin g codec n (Config.params.hmac key (challenge g.ctr)))) b key := by
  have hfits : windowFits (Config.params.hmac key (challenge g.ctr)) = true := windowFits_of_length (by simp)
  simp only [PinDelivered, State.complete_gen, State.complete_resp, genPin_gen_diff, genPin_gen_ctr, genPin_gen_chal,
    genPin_gen_key, genPin_gen_dig, genPin_gen_off, genPin_gen_th g codec n hfits,
    genPin_gen_pinval_toNat g codec hfits hn9, genPin_result_of_fits g codec n hfits, ← hn, hchal, hkey,
    Buffer.read_ofBytes, Buffer.ofBytes_len, Buffer.bytes_ofBytes, ← truncOffset_toNat, ← window_toNat,
    ← truncatedHash_toNat, Response.of_ok, Response.return_status, Response.return_errchar, Response.return_res,
    challenge_length, formatPin_length, true_and]
  exact ⟨hdiff, hlo, hhi, fun j => challenge_getD_toNat g.ctr, rfl, rfl, fun j => formatPin_getD_toNat _⟩

/-- On admissible parameters and a decodable secret the run leaves the registers of steps 2 to 7 and the PIN. -/
theorem pinDelivered_of_admissible {s : State} {b : Bound} {key : List Byte} (halgok : s.algok = true)
    (hb : b.admissible) (hdec : dec Config.params s.req.src.bytes = .ok key) :
    PinDelivered (s.complete (generateRun Config.params s.algok b s.req.src.bytes)) b key := by
  obtain ⟨hpin, hpin9⟩ := hb.pin_toNat
  obtain ⟨hlo, hhi⟩ := hb.counterWord_floor
  rw [halgok, hb.generateRun_of_ok hdec]
  exact pinDelivered_complete_genPin hpin hpin9 (toInt_ofInt_exactDiff b) hlo hhi rfl rfl

/-- Settles O49: the run of the bound parameters is that of admissible ones. -/
theorem totpgenDeliversPin : Obligations.TotpgenDeliversPin :=
  fun dp dt ds s _ halgok hb hdec => ⟨_, exec_totpgen dp dt ds s, pinDelivered_of_admissible halgok hb hdec⟩

/-- Settles O50: as O49, with the wall-clock second bound in place of `NOW`. -/
theorem totpgenwDeliversPin : Obligations.TotpgenwDeliversPin :=
  fun dp dt ds s _ halgok hb hdec => ⟨_, exec_totpgenw dp dt ds s, pinDelivered_of_admissible halgok hb hdec⟩

/-! ## The time the answer depends on (R116, R117, R119) -/

/-- Settles O51: the two operations run on the same bound parameters, in which the other source of the time is not. -/
theorem wallclockFormEquivalent : Obligations.WallclockFormEquivalent :=
  fun dp dt ds _ _ _ => ⟨_, _, exec_totpgenw dp dt ds _, exec_totpgen dp dt ds _, rfl⟩

/-- The registers of steps 2 and 3 do not enter the result of the steps from 4 on. -/
theorem genDigest_result_congr (P : Params) (g g' : GenRegs) (n : Nat) (chal text : List Byte) :
    (genDigest P g n chal text).result = (genDigest P g' n chal text).result := by
  rcases hdec : dec P text with c | key
  · rw [genDigest_of_dec_error hdec, genDigest_of_dec_error hdec]
  · rw [genDigest_of_dec_ok hdec, genDigest_of_dec_ok hdec, genPin_result, genPin_result]

/-- Admissible parameters enter the result through the PIN length and the Counter only. -/
theorem Bound.admissible.generateRun_result {b : Bound} (hb : b.admissible) (P : Params) (text : List Byte) :
    (generateRun P true b text).result =
      (genDigest P GenRegs.zero b.pin.toNat
        (challenge (BitVec.ofInt 64 (counter (exactDiff b) b.step.toInt))) text).result := by
  rw [hb.generateRun_eq]
  exact genDigest_result_congr P _ _ _ _ _

/-- Admissible parameters with the same PIN length and the same Counter give the same result, and without the primitive
all do. -/
theorem generateRun_result_eq_of_counter_eq {P : Params} {algok : Bool} {b b' : Bound} {text : List Byte}
    (hb : b.admissible) (hb' : b'.admissible) (hpin : b'.pin = b.pin)
    (hctr : counter (exactDiff b') b'.step.toInt = counter (exactDiff b) b.step.toInt) :
    (generateRun P algok b' text).result = (generateRun P algok b text).result := by
  cases algok with
  | false => rw [generateRun_of_genCheck_error rfl, generateRun_of_genCheck_error rfl]
  | true => rw [hb.generateRun_result, hb'.generateRun_result, hpin, hctr]

/-- Settles O56: the window of a Counter is the time step whose floor it is, and the result depends on the Counter. -/
theorem timeStepWindow : Obligations.TimeStepWindow := by
  intro dp dt ds s now now' c b b' ctr hb hb' hlo hhi
  have hctr (x : Time) {k : Int} (hxlo : b.start.toInt + k * b.step.toInt ≤ x.toInt)
      (hxhi : x.toInt < b.start.toInt + (k + 1) * b.step.toInt) : ctr (bindParams x dp dt ds s.req) = k :=
    (counter_eq_iff hb.step_pos).2 ⟨Int.le_sub_left_of_add_le hxlo, Int.sub_left_lt_of_lt_add hxhi⟩
  have hc : ctr b = c := hctr now hlo (Int.lt_of_le_sub_one hhi)
  refine ⟨hc, fun hnext => hctr now' hnext.ge ?_, fun hlo' hhi' => ?_⟩
  · rw [hnext]
    linarith
  · have hc' : ctr b' = c := hctr now' hlo' (Int.lt_of_le_sub_one hhi')
    refine ⟨_, _, exec_totpgen dp dt ds _, exec_totpgen dp dt ds _, congrArg Response.of ?_⟩
    exact generateRun_result_eq_of_counter_eq hb hb' rfl (hc'.trans hc.symm)

/-- Settles O57: the floor of a division by 1 is the dividend, and the Challenge is made of the time's own pattern. -/
theorem hotpSpecialCase : Obligations.HotpSpecialCase := by
  intro s dp halgok hstart hstep hb
  have hzero : (0 : Time).toInt = 0 := rfl
  have hone : (1 : Time).toInt = 1 := rfl
  have hctr : counter (s.req.now.toInt - s.req.start.toInt) s.req.step.toInt = s.req.now.toInt := by
    rw [hstart, hstep, hzero, hone, counter, Int.sub_zero, Int.fdiv_one]
  have hpin : (bindParams s.req.now dp false false s.req).pin.toNat = if dp then 6 else s.req.pinlen.toNat :=
    apply_ite BitVec.toNat _ _ _
  have hword : BitVec.ofInt 64 (counter (exactDiff (bindParams s.req.now dp false false s.req)) s.req.step.toInt) =
      s.req.now :=
    (congrArg (BitVec.ofInt 64) hctr).trans BitVec.ofInt_toInt
  refine ⟨hctr, _, exec_totpgen dp false false s, congrArg Response.of ?_⟩
  rw [halgok, hb.generateRun_result, hpin]
  exact congrArg (fun w => (genDigest Config.params GenRegs.zero _ (challenge w) _).result) hword

end Sys2Proof.Machine
end

section
/-! PROOFS. The core between requests (R137, R145): its transient registers are 0 there, every step keeps them so, and
such a state is given by its ports, its `ALGOK` and the moves to come. -/

namespace Sys2Proof.Machine

/-- Between requests the core holds nothing but `ALGOK` and the response: the other fields are the host's (R137). -/
theorem State.Idle.eq_of_ports {s s' : State} (h : s.Idle) (h' : s'.Idle) (halike : s.Alike s') (hreq : s.req = s'.req) :
    s = s' := by
  obtain ⟨hcodec, hgen⟩ := h
  obtain ⟨hcodec', hgen'⟩ := h'
  obtain ⟨hresp, halgok, hpending⟩ := halike
  rw [State.mk.injEq]
  exact ⟨hpending, hreq, hresp, halgok, hcodec.trans hcodec'.symm, hgen.trans hgen'.symm⟩

/-- Whatever the host's move, an idle core is idle after it. -/
theorem State.Idle.step {s t : State} (h : s.Idle) (hstep : step s = .next t) : t.Idle := by
  obtain ⟨-, rfl⟩ | ⟨rest, -, rfl⟩ | ⟨r, rest, -, rfl⟩ | ⟨r, rest, i, run, -, -, -, rfl⟩ |
    ⟨r, rest, e, -, -, rfl⟩ := step_next_cases hstep
  · exact h
  · exact ⟨rfl, rfl⟩
  · exact ⟨rfl, rfl⟩
  · exact ⟨rfl, rfl⟩
  · exact h

/-- An operation's registers are released whatever stood in them before it. -/
theorem idle_of_step_decoded {s t : State} {r : Request} {rest : List HostMove} {i : Instr}
    (hp : s.pending = .request r :: rest) (hd : decode r.cmd = .ok i) (hstep : step s = .next t) : t.Idle := by
  rw [step_request_decoded hp hd, Host.Outcome.next.injEq] at hstep
  subst hstep
  exact ⟨rfl, rfl⟩

/-- Idle cores with the same `ALGOK` step alike on a request, an illegal one too: the step leaves the request on the
ports, and the rest of both states is equal already. -/
theorem step_request_congr {s s' : State} {r : Request} {rest : List HostMove} (h : s.Idle) (h' : s'.Idle)
    (halgok : s.algok = s'.algok) (hp : s.pending = .request r :: rest) (hp' : s'.pending = .request r :: rest) :
    step s = step s' := by
  obtain ⟨t, t', ht, ht', halike⟩ := step_alike halgok (hp.trans hp'.symm) fun hnil => by simp [hp] at hnil
  obtain ⟨u, hu, hreq, -⟩ := step_accepts hp
  obtain ⟨u', hu', hreq', -⟩ := step_accepts hp'
  obtain rfl : t = u := Host.Outcome.next.inj (ht.symm.trans hu)
  obtain rfl : t' = u' := Host.Outcome.next.inj (ht'.symm.trans hu')
  rw [ht, ht', (h.step ht).eq_of_ports (h'.step ht') halike (hreq.trans hreq'.symm)]

/-- Settles O6: by the cases of a step, and because a state between requests is given by its ports and `ALGOK`. -/
theorem idleStepChangesNothing : Obligations.IdleStepChangesNothing :=
  ⟨fun _ hp => stepOf_idle hp, fun _ _ => State.Idle.step, fun _ _ _ _ _ => idle_of_step_decoded,
    fun _ _ _ _ h h' halgok => step_request_congr h h' halgok rfl rfl⟩

end Sys2Proof.Machine
end

section
/-! PROOFS. The order in which a generator operation reports its errors (R129). -/

namespace Sys2Proof.Machine

/-- Where the window does not fit, read off the digest's bytes (R110). -/
theorem not_windowFits_iff {dig : List Byte} :
    ¬ windowFits dig = true ↔ dig = [] ∨ dig.length < (dig.getD (dig.length - 1) 0).toNat % 16 + 4 := by
  rw [windowFits_iff, truncOffset_toNat, ← List.length_eq_zero_iff]
  omega

/-- How the last steps end, in terms of the digest's bytes (R110, R114). -/
theorem genPin_ends (g : GenRegs) (codec : CodecRegs) (n : Nat) (dig : List Byte) :
    if dig = [] ∨ dig.length < (dig.getD (dig.length - 1) 0).toNat % 16 + 4 then
      (genPin g codec n dig).result = .error .digestTooShort
    else ∃ pin, (genPin g codec n dig).result = .ok pin := by
  split_ifs with hshort
  · exact (genPin_digestTooShort_iff g codec n).2 (not_windowFits_iff.2 hshort)
  · exact ⟨_, genPin_result_of_fits g codec n (not_not.1 (not_windowFits_iff.not.2 hshort))⟩

theorem generateRun_result_of_genCheck_error {P : Params} {algok : Bool} {b : Bound} {text : List Byte} {e : Error}
    (h : genCheck algok b = some e) : (generateRun P algok b text).result = .error e := by
  rw [generateRun_of_genCheck_error h]

/-- Settles O60: the checks come first, in the rule's order; then the difference, the secret and the digest. -/
theorem errorPriority : Obligations.ErrorPriority := by
  intro P algok b text hpolicy d result
  cases algok with
  | false => exact generateRun_result_of_genCheck_error rfl
  | true =>
    rw [if_neg (by decide)]
    by_cases hpin : 1 ≤ b.pin.toInt ∧ b.pin.toInt ≤ 9
    case neg =>
      rw [if_pos hpin]
      exact generateRun_result_of_genCheck_error (genCheck_invalidPinLength_iff.2 hpin)
    rw [if_neg (not_not.2 hpin)]
    by_cases hstep : b.step.toInt ≤ 0
    case pos =>
      rw [if_pos hstep]
      exact generateRun_result_of_genCheck_error ((genCheck_invalidTimeStep_iff hpin).2 hstep)
    rw [if_neg hstep]
    have hcheck : genCheck true b = none := (genCheck_eq_none_iff true b).2 ⟨rfl, and_assoc.1 ⟨hpin, not_le.1 hstep⟩⟩
    split_ifs with hdiff
    · refine (generateRun_counterOverflow_iff hcheck).2 ?_
      rw [hpolicy, admitDiff_fault_eq_none_iff]
      exact not_fitsTime_iff.2 hdiff
    have hadmit : admitDiff P.overflow (exactDiff b) = some d :=
      admitDiff_of_fits _ (eq_true_of_ne_false (not_fitsTime_iff.not.2 hdiff))
    rcases hdec : dec P text with c | key
    · exact congrArg Run.result (generateRun_of_dec_error hcheck hadmit hdec)
    · have hresult : result = _ := congrArg Run.result (generateRun_of_reached hcheck hadmit hdec)
      rw [hresult]
      exact genPin_ends _ _ _ _

end Sys2Proof.Machine
end

section
/-! PROOFS. Reset: what it does to `ALGOK` (R143), between operations (R142) and during one (R144). -/

namespace Sys2Proof.Machine

variable {s t : State} {r : Request} {rest : List HostMove}

/-- Only a step on one of the two reset moves touches `ALGOK`, and that step latches `HM_PRESENT` into it (R143). -/
theorem step_algok (hstep : step s = .next t) :
    (((∃ rest, s.pending = .reset :: rest) ∨ ∃ r rest, s.pending = .resetDuring r :: rest) ∧
      t.algok = Config.hmPresent) ∨ t.algok = s.algok := by
  obtain ⟨-, rfl⟩ | ⟨rest, hp, rfl⟩ | ⟨r, rest, hp, rfl⟩ | ⟨r, rest, i, run, -, -, -, rfl⟩ |
    ⟨r, rest, e, -, -, rfl⟩ := step_next_cases hstep
  · exact .inr rfl
  · exact .inl ⟨.inl ⟨rest, hp⟩, rfl⟩
  · exact .inl ⟨.inr ⟨r, rest, hp⟩, rfl⟩
  · exact .inr rfl
  · exact .inr rfl

theorem step_reset (hp : s.pending = .reset :: rest) : step s = .next (s.restart Config.hmPresent rest) :=
  stepOf_reset hp

/-- The instance's `BUF_CAP` is unbounded, so the abandoned request is always admitted first. -/
theorem step_resetDuring (hp : s.pending = .resetDuring r :: rest) :
    step s = .next (s.abandon r Config.hmPresent rest) :=
  stepOf_resetDuring hp rfl

/-- Settles O9: both reset moves latch it, and by the cases of a step nothing else changes it. -/
theorem algokLatchedAtReset : Obligations.AlgokLatchedAtReset := by
  refine ⟨rfl, fun s rest hp => ?_, fun s t hreset hduring hstep => ?_⟩
  · obtain hp | ⟨r, hp⟩ := hp
    · exact ⟨_, step_reset hp, rfl⟩
    · exact ⟨_, step_resetDuring hp, rfl⟩
  · obtain ⟨⟨rest, hp⟩ | ⟨r, rest, hp⟩, -⟩ | hsame := step_algok hstep
    · exact absurd hp (hreset rest)
    · exact absurd hp (hduring r rest)
    · exact hsame

/-- Settles O10: a step keeps `ALGOK` at the value a reset gives it, and beside the moves to come that is all the answer
depends on (R13). -/
theorem resetThenAnswersAlike : Obligations.ResetThenAnswersAlike := by
  refine ⟨fun s rest hp => ⟨_, step_reset hp, rfl, rfl, rfl⟩, fun s t r rest halgok hstep => ?_⟩
  have hlatched : t.algok = Config.hmPresent := (step_algok hstep).elim And.right (·.trans halgok)
  obtain ⟨u, v, hu, hv, halike⟩ :=
    step_alike (s := { State.reset with pending := .request r :: rest })
      (s' := { t with pending := .request r :: rest }) hlatched.symm rfl fun hnil => nomatch hnil
  exact ⟨u, v, hu, hv, halike.resp⟩

/-- Over any parameters a reset during an operation runs no operation: the boundary's test of the operand is all that is
left of the request (R31, R144). -/
theorem stepWith_resetDuring (P : Params) (hp : s.pending = .resetDuring r :: rest) :
    stepWith P s =
      if admitted P.bufCap r.src.len then .next (s.abandon r P.hmPresent rest) else .refused .operandTooLong := by
  simp only [stepWith, stepOf, hp]

/-- Settles O11: the state left has the reset values and is idle, so it answers the next request as the reset core does;
and the step reads the parameters only for the boundary's test and `HM_PRESENT`. -/
theorem resetDuringOperation : Obligations.ResetDuringOperation := by
  intro s r rest hp
  refine ⟨_, step_resetDuring hp, rfl, rfl, rfl, rfl, rfl, rfl, fun next later => ?_, fun P other => ?_⟩
  · exact step_request_congr ⟨rfl, rfl⟩ ⟨rfl, rfl⟩ rfl rfl rfl
  · rw [stepWith_resetDuring _ hp, stepWith_resetDuring P hp]

end Sys2Proof.Machine
end
